-- ==== Sys2Proof/Word.lean ====
section
/-! DEFINITION. The widths of GF128MUL (00_scope.md R7) and the 256-bit product as four words (R10). -/

namespace Sys2Proof

/-- One byte of the GCM 16-byte form (20_memory.md R41) or of a request beat written as bytes. -/
abbrev Byte := BitVec 8

/-- A word, W = 64 bits: "unsigned 64-bit words" (00_scope.md R7). -/
abbrev Word := BitVec 64

/-- A field element, N = 128 bits in internal form: bit i is the coefficient of x^i (00_scope.md R7, R11).
It is the pair (low, high) with the low word in bits [63:0] (R10). -/
abbrev Elem := BitVec 128

/-- The 256-bit carry-less product (X0, X1, X2, X3), "ordered least-significant to most-significant"
(00_scope.md R10; the glossary's WideProduct, R15). It is internal to one operation: no port shows it
(10_state.md R23). -/
structure WideProduct where
  x0 : Word
  x1 : Word
  x2 : Word
  x3 : Word
deriving DecidableEq, Repr, Inhabited

end Sys2Proof
end

