-- ==== Sys2Proof/Syntax.lean ====
section
/-! DEFINITION. The one operation of GF128MUL (30_encoding.md R63), as a request beat presents it. -/

namespace Sys2Proof

/-- The operations of spec/opcode_table.json: one row, GFMUL, with the fields of 30_encoding.md R61.
Operand a is the pair (a0, a1) and operand b the pair (b0, b1), low word first (R64). -/
inductive Instr where
  | gfmul (a0 a1 b0 b1 : Word)
deriving DecidableEq, Repr

end Sys2Proof
end

