-- ==== Sys2Proof/WellFormed.lean ====
section
/-! DEFINITION. Which operations and which request beats are well formed. -/

namespace Sys2Proof

/-- Every operation is well formed: "Every bit pattern of REQ is a valid GFMUL with a defined result"
(30_encoding.md R65). The widths of the fields are in their types, so there is nothing left to check. -/
def Instr.wf : Instr → Bool
  | .gfmul _ _ _ _ => true

/-- The number of bytes of a request beat written as bytes: 256 bits (30_encoding.md R66). -/
def beatBytes : Nat := 32

/-- A request beat written as bytes is well formed when it has all 256 bits and no more: "Every request beat has
the same length, 256 bits in one beat" (30_encoding.md R66). No bit pattern is excluded (R65). -/
def wfBeat (bytes : List Byte) : Bool := bytes.length == beatBytes

end Sys2Proof
end

