-- ==== Sys2Proof/Decode.lean ====
section
/-! DEFINITION. The request word REQ = (req_b, req_a) and its four fields (30_encoding.md R61), the decoder, which
is the constant function GFMUL (R63), and the encoder. -/

namespace Sys2Proof

/-- REQ as the two operand ports make it: `req_b` above `req_a` (30_encoding.md R61). -/
def reqOfPorts (a b : Elem) : BitVec 256 := b ++ a

/-- The decoder over a request word: "the constant function GFMUL with fields a0, a1, b0, b1"
(30_encoding.md R63), at the bit positions of R61. -/
def decodeReq (req : BitVec 256) : Instr :=
  .gfmul (req.extractLsb' 0 64) (req.extractLsb' 64 64) (req.extractLsb' 128 64) (req.extractLsb' 192 64)

/-- Why a string of bytes is no request beat. No bit pattern is a reason (30_encoding.md R65). -/
inductive DecodeReject where
  /-- Fewer than 256 bits: no beat of this block (30_encoding.md R66). -/
  | shortBeat
  /-- More than 256 bits: no beat of this block (30_encoding.md R66). -/
  | longBeat
deriving DecidableEq, Repr

/-- The number that a string of bytes writes, first byte least significant. The hardware has no byte addresses
(20_memory.md R43): the order is the model's (log 9). -/
def natOfBytes : List Byte → Nat
  | [] => 0
  | b :: rest => b.toNat + 256 * natOfBytes rest

/-- A number as `n` bytes, first byte least significant (log 9). -/
def bytesOfNat : Nat → Nat → List Byte
  | 0, _ => []
  | n + 1, w => BitVec.ofNat 8 w :: bytesOfNat n (w / 256)

/-- The decoder over bytes, total: a beat of 32 bytes is GFMUL, and any other length is rejected by name. -/
def decode (bytes : List Byte) : Except DecodeReject Instr :=
  if bytes.length < beatBytes then .error .shortBeat
  else if beatBytes < bytes.length then .error .longBeat
  else .ok (decodeReq (BitVec.ofNat 256 (natOfBytes bytes)))

/-- The encoder: the four fields at the positions of 30_encoding.md R61. -/
def encode : Instr → BitVec 256
  | .gfmul a0 a1 b0 b1 => b1 ++ b0 ++ a1 ++ a0

/-- The encoder to bytes, first byte bits [7:0] of REQ (log 9). -/
def encodeBytes (i : Instr) : List Byte := bytesOfNat beatBytes (encode i).toNat

/-- How many bytes the beat of a table word is written in: at least the 32 of a beat. -/
def tableBytes (nbits : Nat) : Nat := max beatBytes ((nbits + 7) / 8)

/-- The instruction the decoder reads from the table word `w` of `nbits` bits, bit 0 being REQ[0]. The bits above
`nbits` are 0. -/
def decodeTableWord (nbits w : Nat) : Option Instr :=
  (decode (bytesOfNat (tableBytes nbits) (w % 2 ^ nbits))).toOption

end Sys2Proof
end

