-- ==== Sys2Proof/Machine/Ports.lean ====
section
/-! DEFINITION. What crosses the block's ports in one cycle (10_state.md R20), what the host can do, and the
implementation's draws at one edge (10_state.md R30, 42_gfmul.md R125, R128). -/

namespace Sys2Proof.Machine

/-- The inputs sampled at one active edge (10_state.md R20; `clk` is the step itself).
`readsR` is no port: it says that the host uses `rsp_r` of this cycle as a result, the act
60_exceptions.md R152 makes a fault while `phase = Unreset` (log 6). -/
structure HostCycle where
  rst : Bool
  reqValid : Bool
  reqA : Elem
  reqB : Elem
  rspReady : Bool
  readsR : Bool
deriving DecidableEq, Repr, Inhabited

/-- What the outside does next: one cycle with its active edge, or loss of power (60_exceptions.md R162). -/
inductive HostEvent where
  | edge (c : HostCycle)
  | powerLoss
deriving DecidableEq, Repr, Inhabited

/-- What is left of an event when the operands are dropped: the "history of `rst`, `req_valid` and
`rsp_ready`" that timing may depend on (70_reset_and_hazards.md R181). -/
inductive Seen where
  | edge (rst reqValid rspReady : Bool)
  | powerLoss
deriving DecidableEq, Repr, Inhabited

/-- The implementation's choices at one edge.
`avail` gates `req_ready` (10_state.md R30) and `completes` names, by position in the queue (0 the head), the
entries that become ready (42_gfmul.md R128). `xReqReady`, `xRspValid` and `xRspR` are the values the outputs
show where the spec leaves them unspecified (10_state.md R30; D13, D14). -/
structure Draw where
  avail : Bool
  completes : List Nat
  xReqReady : Bool
  xRspValid : Bool
  xRspR : Elem
deriving DecidableEq, Repr, Inhabited

/-- The outputs driven in one cycle (10_state.md R20, R30). -/
structure Outputs where
  reqReady : Bool
  rspValid : Bool
  rspR : Elem
deriving DecidableEq, Repr, Inhabited

end Sys2Proof.Machine
end

