-- ==== Sys2Proof/Config.lean ====
section
/-! DEFINITION. The block parameters (00_scope.md R8), which the spec leaves OPEN, and the free values: opaque
constants with no body, so that no proof can see what they are. -/

namespace Sys2Proof

/-- How the 64x64 primitive is built (00_scope.md R8, 40_clmul.md R80, R81). -/
inductive ClmulImpl where
  | parallel
  | iterative
deriving DecidableEq, Repr, Inhabited

/-- The parameters of one block, "fixed when the block is built" (00_scope.md R8).
The ranges hold by construction: `DEPTH` is `depthLess1 + 1`, so at least 1, and `LAT_MAX` is
`latMin + latSpan`, so at least `LAT_MIN` (log 3). -/
structure Params where
  impl : ClmulImpl
  depthLess1 : Nat
  latMin : Nat
  latSpan : Nat
deriving DecidableEq, Repr, Inhabited

/-- `DEPTH`: "most operations accepted but not yet delivered" (00_scope.md R8). -/
def Params.depth (p : Params) : Nat := p.depthLess1 + 1

/-- `LAT_MAX` (00_scope.md R8). -/
def Params.latMax (p : Params) : Nat := p.latMin + p.latSpan

/-- The reference configuration REF of 92_eei_decisions.md D7: "an example, not a requirement". -/
def Params.ref : Params := { impl := .parallel, depthLess1 := 1, latMin := 1, latSpan := 0 }

/-- `CLMUL_IMPL` of the block that leaves reset: OPEN (00_scope.md R8). -/
opaque Config.clmulImpl : ClmulImpl

/-- `DEPTH` less 1 of the block that leaves reset: OPEN (00_scope.md R8; D8). -/
opaque Config.depthLess1 : Nat

/-- `LAT_MIN` of the block that leaves reset: OPEN (00_scope.md R8; D7). -/
opaque Config.latMin : Nat

/-- `LAT_MAX` less `LAT_MIN` of the block that leaves reset: OPEN (00_scope.md R8; D7). -/
opaque Config.latSpan : Nat

/-- The parameters of the block that leaves reset. -/
def Config.params : Params :=
  { impl := Config.clmulImpl, depthLess1 := Config.depthLess1, latMin := Config.latMin, latSpan := Config.latSpan }

/-- Free value: the draw `avail` (10_state.md R30) where State fixes none. Like every draw it may depend on the
configuration and on the control history alone, never on operands (70_reset_and_hazards.md R181; log 2). -/
opaque Config.freeAvail : Params → List Machine.Seen → Bool

/-- Free value: the draw `completes` (42_gfmul.md R125, R128) where State fixes none. Its history includes the
edge itself (log 2). -/
opaque Config.freeCompletes : Params → List Machine.Seen → List Nat

/-- Free value: `req_ready` before the first reset (10_state.md R30; D14). -/
opaque Config.freeReqReady : Params → List Machine.Seen → Bool

/-- Free value: `rsp_valid` before the first reset (10_state.md R30; D14). -/
opaque Config.freeRspValid : Params → List Machine.Seen → Bool

/-- Free value: `rsp_r` wherever the spec leaves it unspecified (10_state.md R30; D13). -/
opaque Config.freeRspR : Params → List Machine.Seen → Elem

/-- Free value: what the outside does where State fixes nothing. A host may choose by all it has seen: the control
history and the results delivered to it (log 1). -/
opaque Config.freeEvent : List Machine.Seen → List Elem → Machine.HostEvent

end Sys2Proof
end

