-- ==== Sys2Proof/Machine/State.lean ====
section
/-! DEFINITION. The machine's state as plain data, why a step can stop, and the state after reset. -/

namespace Sys2Proof.Machine

/-- `phase` of 10_state.md R21: "The block is `Unreset` from power-on until the first active edge at which `rst` is
sampled 1". -/
inductive Phase where
  | unreset
  | running
deriving DecidableEq, Repr, Inhabited

/-- An entry of `q`. `r` and `ready` are the pair of 10_state.md R22. `t` and `base` are the model's own, for the
bounds of 42_gfmul.md R125: the accepting edge, and max(t, t_prev) once the entry ahead has become ready (log 4). -/
structure Entry where
  r : Elem
  ready : Bool
  t : Nat
  base : Option Nat
deriving DecidableEq, Repr, Inhabited

/-- The state. `phase` and `q` are the spec's whole architectural state (10_state.md R21). The rest is the model's
own: `params` are the block parameters, which no step changes (00_scope.md R8; log 3); `accepted` and `delivered` are
the host's record of the beats since the last reset, whose lengths are the counts of 20_memory.md R48 (log 5); `hist`
is the control history, newest first, that timing may depend on (70_reset_and_hazards.md R181); `host` and `draws` are
what the outside and the implementation do at the coming edges (log 1, log 2). -/
structure State where
  params : Params
  phase : Phase
  q : List Entry
  accepted : List (Elem × Elem)
  delivered : List Elem
  hist : List Seen
  host : List HostEvent
  draws : List Draw
deriving DecidableEq, Repr, Inhabited

/-- The model's one fault (60_exceptions.md R152). -/
inductive Fault where
  /-- Raised by an edge at which the host takes a beat, or uses `rsp_r` as a result, before the first reset
  (60_exceptions.md R152, 70_reset_and_hazards.md R171). Safe: the chip goes on with unspecified values. -/
  | usedBeforeReset
deriving DecidableEq, Repr

/-- Why an instruction has no meaning. -/
inductive Refusal where
  /-- An instruction of the table without a meaning. No arm of `exec` raises it. Safe. -/
  | notModelled (mnemonic : String)
deriving DecidableEq, Repr

/-- The state right after a reset edge (10_state.md R32): `Running` and nothing in flight. The counts restart at 0
(70_reset_and_hazards.md R173). The parameters are the free ones of Config, and no coming event or draw is fixed
(log 8). -/
def State.reset : State :=
  { params := Config.params, phase := .running, q := [], accepted := [], delivered := [],
    hist := [], host := [], draws := [] }

/-- The state at power-on, before the first reset (10_state.md R21, R32). `q` is not tracked there (R32): the empty
list stands for it. -/
def State.powerOn : State := { State.reset with phase := .unreset }

end Sys2Proof.Machine
end

