-- ==== Sys2Proof/Machine/Operands.lean ====
section
/-! DEFINITION. Bit-level helpers, the halves of a field element (00_scope.md R10), the operand forms of GFMUL
(30_encoding.md R64), the multi-word shift (00_scope.md R12) and the GCM 16-byte form (20_memory.md R41). -/

namespace Sys2Proof.Machine

/-- The XOR of `f 0`, ..., `f (n-1)`. -/
def xorSum : Nat → (Nat → Bool) → Bool
  | 0, _ => false
  | n + 1, f => f n ^^ xorSum n f

/-- The vector of width `w` whose bit i is `f i`. -/
def ofBits : (w : Nat) → (Nat → Bool) → BitVec w
  | 0, _ => 0#0
  | w + 1, f => BitVec.cons (f w) (ofBits w f)

/-- The low word, bits [63:0] (00_scope.md R10). -/
def lo (v : Elem) : Word := v.extractLsb' 0 64

/-- The high word, bits [127:64] (00_scope.md R10). -/
def hi (v : Elem) : Word := v.extractLsb' 64 64

/-- The element of a pair (low, high) (00_scope.md R10; operands of 30_encoding.md R64). -/
def elem (low high : Word) : Elem := high ++ low

/-- A WideProduct as a vector, X0 in bits [63:0] (00_scope.md R10). -/
def wideVec (x : WideProduct) : BitVec 256 := x.x3 ++ x.x2 ++ x.x1 ++ x.x0

/-- The four words of a 256-bit vector, low to high (00_scope.md R10). -/
def wideOfVec (v : BitVec 256) : WideProduct :=
  { x0 := v.extractLsb' 0 64, x1 := v.extractLsb' 64 64, x2 := v.extractLsb' 128 64, x3 := v.extractLsb' 192 64 }

/-- The "standard multi-word shift" of a pair by 0 < n < 64 (00_scope.md R12). -/
def shlPair (n : Nat) (t : Elem) : Elem :=
  elem (lo t <<< n) ((hi t <<< n) ^^^ (lo t >>> (64 - n)))

/-- The polynomial 1 (42_gfmul.md R121). -/
def elemOne : Elem := 1#128

/-- The all-zero element (00_scope.md R15). -/
def elemZero : Elem := 0#128

/-- From the GCM 16-byte form, B_0 first, to the internal form: I[8j+k] = B_j[7-k] (20_memory.md R41; log 11). -/
def ofGcm (b : Vector Byte 16) : Elem :=
  ofBits 128 fun i => (b[i / 8]?.getD 0#8).getLsbD (7 - i % 8)

/-- From the internal form to the GCM 16-byte form, the same map read the other way (20_memory.md R41). -/
def toGcm (v : Elem) : Vector Byte 16 :=
  Vector.ofFn fun j => ofBits 8 fun m => v.getLsbD (8 * j.val + (7 - m))

end Sys2Proof.Machine
end

