-- ==== Sys2Proof/Machine/Clmul.lean ====
section
/-! DEFINITION. The carry-less multiplier, the block's first stage: the 64x64 primitive (40_clmul.md R80, R81) and the
Karatsuba product (R82). -/

namespace Sys2Proof.Machine

/-- CLMUL64(u, v), the definition (40_clmul.md R80): bit k is the XOR of u[i] & v[j] over i + j = k. With j = k - i the
sum runs over the i up to 63 and k; a j above 63 adds nothing, since v has no such bit. -/
def clmul64 (u v : Word) : Elem :=
  ofBits 128 fun k => xorSum 64 fun i => Nat.ble i k && (u.getLsbD i && v.getLsbD (k - i))

/-- The accumulator of CLMUL64_ITER after its first n iterations, those for i = 0 .. n-1 (40_clmul.md R81). -/
def clmulAcc (u v : Word) : Nat → Elem
  | 0 => 0#128
  | i + 1 =>
    let acc := clmulAcc u v i
    if v.getLsbD i then acc ^^^ (u.setWidth 128 <<< i) else acc

/-- CLMUL64_ITER(u, v): all 64 iterations, whatever the operands (40_clmul.md R81). -/
def clmul64Iter (u v : Word) : Elem := clmulAcc u v 64

/-- The 64x64 primitive as `CLMUL_IMPL` builds it (00_scope.md R8, 40_clmul.md R80, R81). -/
def clmul64By : ClmulImpl → Word → Word → Elem
  | .parallel, u, v => clmul64 u v
  | .iterative, u, v => clmul64Iter u v

/-- CLMUL128(a, b) over a 64x64 primitive, steps 1 to 5 of 40_clmul.md R82. The names C, D, E are local
(90_conflicts.md C4). -/
def clmul128With (mul : Word → Word → Elem) (a b : Elem) : WideProduct :=
  let c := mul (hi a) (hi b)
  let d := mul (lo a) (lo b)
  let am := lo a ^^^ hi a
  let bm := lo b ^^^ hi b
  let e := mul am bm
  { x3 := hi c
    x2 := lo c ^^^ hi c ^^^ hi d ^^^ hi e
    x1 := hi d ^^^ lo c ^^^ lo d ^^^ lo e
    x0 := lo d }

/-- CLMUL128(a, b) (40_clmul.md R82), over the primitive's definition. -/
def clmul128 (a b : Elem) : WideProduct := clmul128With clmul64 a b

/-- CLMUL128(a, b) as the block with this `CLMUL_IMPL` computes it (40_clmul.md R82, R83). -/
def clmul128By (impl : ClmulImpl) (a b : Elem) : WideProduct := clmul128With (clmul64By impl) a b

end Sys2Proof.Machine
end

