-- ==== Sys2Proof/Machine/Flags.lean ====
section
/-! DEFINITION. The signals the block drives. It has no flags, condition codes, error bits or status outputs
(10_state.md R26): the handshake is all it signals, and these are its conditions (10_state.md R30). -/

namespace Sys2Proof.Machine

/-- Whether the head of the queue can be offered: q is not empty and head(q).ready (10_state.md R30). -/
def headReady : List Entry → Bool
  | [] => false
  | x :: _ => x.ready

/-- What `rsp_r` carries: head(q).r while `rsp_valid` = 1, and else a value nothing constrains (10_state.md R30). -/
def headResult (x : Elem) : List Entry → Elem
  | [] => x
  | e :: _ => if e.ready then e.r else x

/-- The outputs of a cycle, from the state, `rst` and the draws alone (10_state.md R30). They do not depend on
`req_valid`, `req_a`, `req_b` or `rsp_ready` (70_reset_and_hazards.md R179): they are not given them. -/
def State.outputs (s : State) (rst : Bool) (d : Draw) : Outputs :=
  match s.phase with
  | .unreset => { reqReady := d.xReqReady, rspValid := d.xRspValid, rspR := d.xRspR }
  | .running =>
    if rst then { reqReady := false, rspValid := false, rspR := d.xRspR }
    else
      { reqReady := decide (s.q.length < s.params.depth) && d.avail
        rspValid := headReady s.q
        rspR := headResult d.xRspR s.q }

end Sys2Proof.Machine
end

