-- ==== Sys2Proof/Machine/Reduce.lean ====
section
/-! DEFINITION. The field reducer, the block's second stage (41_reduce.md R100). -/

namespace Sys2Proof.Machine

/-- REDUCE(X0, X1, X2, X3), steps 1 to 6 of 41_reduce.md R100, on every 256-bit input (R101, 90_conflicts.md C2). The
names A to G and T are local (90_conflicts.md C4); A is the coefficient of x^255 (90_conflicts.md C1). -/
def reduce (x : WideProduct) : Elem :=
  let a := x.x3 >>> 63
  let b := x.x3 >>> 62
  let c := x.x3 >>> 57
  let d := x.x2 ^^^ a ^^^ b ^^^ c
  let t := elem d x.x3
  let e := shlPair 1 t
  let f := shlPair 2 t
  let g := shlPair 7 t
  elem (x.x0 ^^^ d ^^^ lo e ^^^ lo f ^^^ lo g) (x.x1 ^^^ x.x3 ^^^ hi e ^^^ hi f ^^^ hi g)

end Sys2Proof.Machine
end

