-- ==== Sys2Proof/Machine/Ops.lean ====
section
/-! DEFINITION. The operations every meaning shares: what the coming cycle and draw are, reset, accept, complete,
deliver, the edge function (42_gfmul.md R123 to R128) and loss of power. There is no exception entry to write: the
block has no traps (60_exceptions.md R150, R154). -/

namespace Sys2Proof.Machine

/-- GFMUL(a, b), the definition (42_gfmul.md R120). -/
def gfmul (a b : Elem) : Elem := reduce (clmul128 a b)

/-- GFMUL(a, b) as the block with this `CLMUL_IMPL` computes it (40_clmul.md R82, 42_gfmul.md R120). -/
def gfmulBy (impl : ClmulImpl) (a b : Elem) : Elem := reduce (clmul128By impl a b)

/-- The number of the coming edge, counted from the state after reset. -/
def State.edgeNo (s : State) : Nat := s.hist.length

/-- What an event leaves in the control history: all but the operands (70_reset_and_hazards.md R181). -/
def HostCycle.seen (c : HostCycle) : Seen := .edge c.rst c.reqValid c.rspReady

/-- What the outside does next: the next event the state fixes, and else a free value (log 1). -/
def State.nextEvent (s : State) : HostEvent :=
  match s.host with
  | ev :: _ => ev
  | [] => Config.freeEvent s.hist s.delivered

/-- The implementation's draws at the coming edge, whose inputs are c: the next draws the state fixes, and else free
values (log 2). -/
def State.nextDraw (s : State) (c : HostCycle) : Draw :=
  match s.draws with
  | d :: _ => d
  | [] =>
    { avail := Config.freeAvail s.params s.hist
      completes := Config.freeCompletes s.params (c.seen :: s.hist)
      xReqReady := Config.freeReqReady s.params s.hist
      xRspValid := Config.freeRspValid s.params s.hist
      xRspR := Config.freeRspR s.params s.hist }

/-- The edge is past: its event and draws are spent, and the history holds what was seen. -/
def State.consume (s : State) (c : HostCycle) : State :=
  { s with hist := c.seen :: s.hist, host := s.host.tail, draws := s.draws.tail }

/-- The effect of reset (70_reset_and_hazards.md R172): `Running`, q empty, and both beat counts restart at 0
(R173). -/
def State.doReset (s : State) : State :=
  { s with phase := .running, q := [], accepted := [], delivered := [] }

/-- Loss of power: "the block returns to `phase = Unreset` and loses `q`" (60_exceptions.md R162; log 7). It is no
edge: no draw is spent. -/
def State.losePower (s : State) : State :=
  { s with phase := .unreset, q := [], hist := .powerLoss :: s.hist, host := s.host.tail }

/-- Deliver: the host receives v and the head leaves the queue (42_gfmul.md R126). -/
def State.deliver (s : State) (v : Elem) : State :=
  { s with q := s.q.tail, delivered := s.delivered ++ [v] }

/-- Accept: the result of the sampled operands goes at the tail, not ready (42_gfmul.md R123, R124). -/
def State.accept (s : State) (a b : Elem) : State :=
  { s with
    q := s.q ++ [{ r := gfmulBy s.params.impl a b, ready := false, t := s.edgeNo, base := none }]
    accepted := s.accepted ++ [(a, b)] }

/-- Whether an entry may become ready at edge e: "not ready before edge t + `LAT_MIN`" (42_gfmul.md R125 (a)). -/
def mayReady (p : Params) (e : Nat) (x : Entry) : Bool := decide (x.t + p.latMin ≤ e)

/-- Whether edge e is the last at which an entry can become ready: "ready by edge max(t, t_prev) + `LAT_MAX`"
(42_gfmul.md R125 (b)). -/
def mustReady (p : Params) (e : Nat) : Option Nat → Bool
  | some b => decide (b + p.latMax ≤ e)
  | none => false

/-- max(t, t_prev) of an entry, as known at edge e: it is set at the edge at which the entry ahead is first seen ready
(or absent) while this entry is in the queue (42_gfmul.md R125 (b); log 4). -/
def baseAt (e : Nat) (aheadReady : Bool) (base : Option Nat) : Option Nat :=
  if aheadReady then some (base.getD e) else base

/-- What edge e does to one entry: `ready` is permanent (42_gfmul.md R125 (c)), and goes to true when the draw names
the entry or its time is up, but never too early (R125 (a), (b)). -/
def completeEntry (p : Params) (e : Nat) (aheadReady named : Bool) (x : Entry) : Entry :=
  { x with
    base := baseAt e aheadReady x.base
    ready := x.ready || (mayReady p e x && (named || mustReady p e (baseAt e aheadReady x.base))) }

/-- Complete along the queue, from position i on. The entry ahead of the first is none, which counts as ready. -/
def completeFrom (p : Params) (e : Nat) (names : List Nat) : Nat → Bool → List Entry → List Entry
  | _, _, [] => []
  | i, aheadReady, x :: rest =>
    let y := completeEntry p e aheadReady (names.contains i) x
    y :: completeFrom p e names (i + 1) y.ready rest

/-- Complete: the entries that become ready at this edge (42_gfmul.md R125, R128). -/
def State.complete (s : State) (names : List Nat) : State :=
  { s with q := completeFrom s.params s.edgeNo names 0 true s.q }

/-- Deliver, if a response beat happens at this edge (30_encoding.md R60, 42_gfmul.md R126). -/
def State.deliverIf (s : State) (o : Outputs) (c : HostCycle) : State :=
  if o.rspValid && c.rspReady then s.deliver o.rspR else s

/-- Accept, if a request beat happens at this edge (30_encoding.md R60, 42_gfmul.md R124). -/
def State.acceptIf (s : State) (o : Outputs) (c : HostCycle) : State :=
  if c.reqValid && o.reqReady then s.accept c.reqA c.reqB else s

/-- EDGE of 42_gfmul.md R128, with `phase = Running`: reset, or deliver, accept and complete, all by the outputs of
the old state. -/
def State.runningEdge (s : State) (c : HostCycle) (d : Draw) : State :=
  if c.rst then s.doReset
  else
    let o := s.outputs c.rst d
    ((s.deliverIf o c).acceptIf o c).complete d.completes

/-- Whether the host takes a beat before the first reset, by the unspecified outputs it sees. No beat happens at an
edge with `rst` = 1 (30_encoding.md R60, 70_reset_and_hazards.md R174). -/
def unresetBeat (c : HostCycle) (d : Draw) : Bool :=
  !c.rst && ((c.reqValid && d.xReqReady) || (c.rspReady && d.xRspValid))

/-- One active edge with inputs c and draws d. Before the first reset a beat, or a use of `rsp_r`, is the fault
UsedBeforeReset, and an edge with `rst` = 0 leaves the phase as it is (60_exceptions.md R152,
70_reset_and_hazards.md R171, R172; log 6). -/
def State.edgeWith (s : State) (c : HostCycle) (d : Draw) : Host.Outcome State Fault Refusal :=
  match s.phase with
  | .running => .next ((s.runningEdge c d).consume c)
  | .unreset =>
    if c.readsR || unresetBeat c d then .fault .usedBeforeReset
    else .next ((if c.rst then s.doReset else s).consume c)

/-- One active edge with inputs c, at the draws of the state. -/
def State.edge (s : State) (c : HostCycle) : Host.Outcome State Fault Refusal := s.edgeWith c (s.nextDraw c)

/-- The cycle c with a request for a, b on the request channel. -/
def HostCycle.withRequest (c : HostCycle) (a b : Elem) : HostCycle := { c with reqValid := true, reqA := a, reqB := b }

/-- Present a request at the coming edge. `rst`, `rsp_ready` and the draws are those of the state. If power fails
before the edge, there is no edge. -/
def State.present (s : State) (a b : Elem) : Host.Outcome State Fault Refusal :=
  match s.nextEvent with
  | .powerLoss => .next s.losePower
  | .edge c => s.edge (c.withRequest a b)

/-- What a step does that presents no request: an edge with `req_valid` = 0, or loss of power. -/
def State.noRequest (s : State) : Host.Outcome State Fault Refusal :=
  match s.nextEvent with
  | .powerLoss => .next s.losePower
  | .edge c => s.edge { c with reqValid := false }

/-- The request word a cycle presents, if it presents one: `req_valid` = 1 (30_encoding.md R60, R61). -/
def HostEvent.request : HostEvent → Option (BitVec 256)
  | .edge c => if c.reqValid then some (reqOfPorts c.reqA c.reqB) else none
  | .powerLoss => none

/-- Put the request word `req` on the request channel of the coming edge, with `rst` = 0 and `avail` = 1, so that a
block with room accepts it at that edge (log 10). The rest of the cycle and of the draws stays as it is. -/
def State.withRequest (s : State) (req : BitVec 256) : State :=
  let c : HostCycle :=
    match s.nextEvent with
    | .edge c => c
    | .powerLoss => default
  let c' : HostCycle := { c.withRequest (req.extractLsb' 0 128) (req.extractLsb' 128 128) with rst := false }
  { s with
    host := .edge c' :: s.host.tail
    draws := { s.nextDraw c' with avail := true } :: s.draws.tail }

end Sys2Proof.Machine
end

