-- ==== Sys2Proof/Machine/Gfmul.lean ====
section
/-! DEFINITION. The meaning of GFMUL, the one row of the opcode table. -/

namespace Sys2Proof.Machine

/-- GFMUL (42_gfmul.md R120): the request (a0, a1), (b0, b1) (30_encoding.md R64) is presented at the coming edge. If
the beat happens the block accepts the operation, and its result is delivered later, in order (42_gfmul.md R124, R126,
R128); while `req_ready` = 0 the edge transfers nothing (30_encoding.md R60). -/
def execGfmul (a0 a1 b0 b1 : Word) (s : State) : Host.Outcome State Fault Refusal :=
  s.present (elem a0 a1) (elem b0 b1)

end Sys2Proof.Machine
end

