-- ==== Sys2Proof/Machine/Dispatch.lean ====
section
/-! DEFINITION. One arm per row of spec/opcode_table.json. -/

namespace Sys2Proof.Machine

def exec (i : Instr) (s : State) : Host.Outcome State Fault Refusal :=
  match i with
  | .gfmul a0 a1 b0 b1 => Sys2Proof.Machine.execGfmul a0 a1 b0 b1 s

end Sys2Proof.Machine
end

