-- ==== Sys2Proof/Machine/Step.lean ====
section
/-! DEFINITION. One step: one active edge, or loss of power. -/

namespace Sys2Proof.Machine

/-- One step. If the coming cycle presents a request, its word is decoded and the instruction is executed at that
edge; every request beat is GFMUL (30_encoding.md R63). Else the edge passes with no request. -/
def step (s : State) : Host.Outcome State Fault Refusal :=
  match s.nextEvent.request with
  | some req => exec (decodeReq req) s
  | none => s.noRequest

/-- The state with the table word `w` of `nbits` bits presented as the request of the coming edge (log 10). The bits
above `nbits` are 0. -/
def State.withFetchWord (s : State) (nbits w : Nat) : State :=
  s.withRequest (BitVec.ofNat 256 (w % 2 ^ nbits))

end Sys2Proof.Machine
end

