-- ==== Sys2Proof/Machine/Script.lean ====
section
/-! DEFINITION. The host's transaction scripts (30_encoding.md R67), how a host runs one against the block, and when a
script has ended (42_gfmul.md R132). The block knows nothing of scripts: this is the host's side of the ports. -/

namespace Sys2Proof.Machine

/-- An operand of a script: "128-bit internal-form literals or names bound earlier" (30_encoding.md R67). -/
inductive Operand where
  | lit (v : Elem)
  | name (n : String)
deriving DecidableEq, Repr

/-- One bit of a host computation: a Boolean function of bits of its operands. XOR and AND with the constants make every
Boolean function. -/
inductive HostBit where
  | const (b : Bool)
  | bit (o : Operand) (i : Nat)
  | xor (x y : HostBit)
  | and (x y : HostBit)
deriving DecidableEq, Repr

/-- A computation of the host, "for example a XOR" (30_encoding.md R67). `bits` gives the value bit by bit, bit 0 first and 0
past the end of the list: every function of 128-bit values to one is of this form, so no computation is left out. -/
inductive HostExpr where
  | operand (o : Operand)
  | xor (x y : HostExpr)
  | bits (bs : List HostBit)
deriving DecidableEq, Repr

/-- The host computation whose bit i is `f i`. -/
def HostExpr.ofFn (f : Nat → HostBit) : HostExpr := .bits ((List.range 128).map f)

/-- The statements of 30_encoding.md R67, one a line. -/
inductive Line where
  | reset
  | gfmul (a b : Operand)
  | recv (n : String)
  | idle (k : Nat)
  | host (n : String) (e : HostExpr)
  | comment (text : String)
deriving DecidableEq, Repr

/-- The pseudo-instruction `gfsqr A`, "which stands for `gfmul A, A`" (30_encoding.md R67). -/
def gfsqr (a : Operand) : Line := .gfmul a a

/-- The values the script's names have so far, the newest first. A script may bind one name twice, on which the spec is silent:
the newest value is the name's from then on (log 12). -/
abbrev Names := List (String × Elem)

/-- The value of an operand, if its name is bound. -/
def Operand.value (env : Names) : Operand → Option Elem
  | .lit v => some v
  | .name n => (env.find? fun p => p.1 == n).map (·.2)

/-- The value of one bit of a host computation, if its names are bound. -/
def HostBit.value (env : Names) : HostBit → Option Bool
  | .const b => some b
  | .bit o i => (o.value env).map (·.getLsbD i)
  | .xor x y =>
    match x.value env, y.value env with
    | some v, some w => some (v ^^ w)
    | _, _ => none
  | .and x y =>
    match x.value env, y.value env with
    | some v, some w => some (v && w)
    | _, _ => none

/-- The values of a list of bits, if every name is bound. -/
def HostBit.values (env : Names) : List HostBit → Option (List Bool)
  | [] => some []
  | b :: rest =>
    match b.value env, HostBit.values env rest with
    | some v, some vs => some (v :: vs)
    | _, _ => none

/-- The value of a host computation, if its names are bound. -/
def HostExpr.value (env : Names) : HostExpr → Option Elem
  | .operand o => o.value env
  | .xor x y =>
    match x.value env, y.value env with
    | some v, some w => some (v ^^^ w)
    | _, _ => none
  | .bits bs => (HostBit.values env bs).map fun vs => ofBits 128 fun i => vs[i]?.getD false

/-- Whether every name an operand uses is bound. -/
def Operand.wf (bound : List String) : Operand → Bool
  | .lit _ => true
  | .name n => bound.contains n

/-- Whether every name one bit of a host computation uses is bound. -/
def HostBit.wf (bound : List String) : HostBit → Bool
  | .const _ => true
  | .bit o _ => o.wf bound
  | .xor x y => x.wf bound && y.wf bound
  | .and x y => x.wf bound && y.wf bound

/-- Whether every name a host computation uses is bound. -/
def HostExpr.wf (bound : List String) : HostExpr → Bool
  | .operand o => o.wf bound
  | .xor x y => x.wf bound && y.wf bound
  | .bits bs => bs.all (HostBit.wf bound)

/-- Whether a script uses only "names bound earlier" (30_encoding.md R67). It may bind a name again (log 12). -/
def wfScript (bound : List String) : List Line → Bool
  | [] => true
  | .gfmul a b :: rest => a.wf bound && b.wf bound && wfScript bound rest
  | .recv n :: rest => wfScript (n :: bound) rest
  | .host n e :: rest => e.wf bound && wfScript (n :: bound) rest
  | .reset :: rest => wfScript bound rest
  | .idle _ :: rest => wfScript bound rest
  | .comment _ :: rest => wfScript bound rest

/-- A script's encoding, "the sequence of REQ words of its `gfmul` lines" (30_encoding.md R67), where `env` gives the names
bound so far their values and `received` is what its `recv` lines take, in order. A name bound twice has its newest value, as
it has for the host that runs the script (log 12). There is none where a name is not bound or `received` is too short. -/
def scriptEncoding : Names → List Elem → List Line → Option (List (BitVec 256))
  | _, _, [] => some []
  | env, received, .gfmul a b :: rest =>
    match a.value env, b.value env, scriptEncoding env received rest with
    | some v, some w, some ws => some (reqOfPorts v w :: ws)
    | _, _, _ => none
  | _, [], .recv _ :: _ => none
  | env, r :: received, .recv n :: rest => scriptEncoding ((n, r) :: env) received rest
  | env, received, .host n e :: rest =>
    match e.value env with
    | some v => scriptEncoding ((n, v) :: env) received rest
    | none => none
  | env, received, .reset :: rest => scriptEncoding env received rest
  | env, received, .idle _ :: rest => scriptEncoding env received rest
  | env, received, .comment _ :: rest => scriptEncoding env received rest

/-- A host in the middle of a script: the lines left, the edges of an `idle` line already past, the names bound, and
the block. -/
structure ScriptState where
  lines : List Line
  idled : Nat
  env : Names
  block : State
deriving DecidableEq, Repr

/-- What one turn of the script's host ends in. -/
inductive ScriptOutcome where
  | next (t : ScriptState)
  /-- No line is left (42_gfmul.md R132). -/
  | ended
  /-- The script is not well formed (`wfScript`): an operand's name is not bound. -/
  | unboundName
  /-- The block's fault (60_exceptions.md R152); "the faulted state is never final". -/
  | fault (f : Fault)
  | refused (r : Refusal)
deriving DecidableEq, Repr

/-- The cycle of a host that drives nothing: `req_valid` = 0 and `rsp_ready` = 0. The operand ports then carry 0, which
nothing reads (42_gfmul.md R123; log 12). -/
def quietCycle : HostCycle :=
  { rst := false, reqValid := false, reqA := 0#128, reqB := 0#128, rspReady := false, readsR := false }

/-- The cycle of a `reset` line. -/
def resetCycle : HostCycle := { quietCycle with rst := true }

/-- The cycle of a `gfmul` line with these operand values. -/
def gfmulCycle (a b : Elem) : HostCycle := quietCycle.withRequest a b

/-- The cycle of a `recv` line. -/
def recvCycle : HostCycle := { quietCycle with rspReady := true }

/-- One edge of the block with the host's inputs c, and then `k` on the block after it. -/
def ScriptState.driveEdge (ss : ScriptState) (c : HostCycle) (k : State → ScriptState) : ScriptOutcome :=
  match step { ss.block with host := [.edge c] } with
  | .next s => .next (k s)
  | .fault f => .fault f
  | .refused r => .refused r

/-- One turn of the host: a line that takes no edge is done at once, and any other drives one edge (30_encoding.md
R67). `gfmul` holds its request until the accept beat and `recv` holds `rsp_ready` until the deliver beat, whose value
it binds, over any value the name had before (log 12). -/
def scriptStep (ss : ScriptState) : ScriptOutcome :=
  match ss.lines with
  | [] => .ended
  | .comment _ :: rest => .next { ss with lines := rest }
  | .host n e :: rest =>
    match e.value ss.env with
    | some v => .next { ss with lines := rest, env := (n, v) :: ss.env }
    | none => .unboundName
  | .reset :: rest => ss.driveEdge resetCycle fun s => { ss with lines := rest, block := s }
  | .idle k :: rest =>
    if ss.idled < k then ss.driveEdge quietCycle fun s => { ss with idled := ss.idled + 1, block := s }
    else .next { ss with lines := rest, idled := 0 }
  | .gfmul a b :: rest =>
    match a.value ss.env, b.value ss.env with
    | some v, some w =>
      ss.driveEdge (gfmulCycle v w) fun s =>
        { ss with
          lines := if ss.block.accepted.length < s.accepted.length then rest else ss.lines
          block := s }
    | _, _ => .unboundName
  | .recv n :: rest =>
    ss.driveEdge recvCycle fun s =>
      if ss.block.delivered.length < s.delivered.length then
        { ss with lines := rest, env := (n, s.delivered.getLastD 0#128) :: ss.env, block := s }
      else { ss with block := s }

/-- `m` turns of the script's host, stopping at the first that is no next. -/
def scriptRun : Nat → ScriptState → ScriptOutcome
  | 0, ss => .next ss
  | m + 1, ss =>
    match scriptStep ss with
    | .next t => scriptRun m t
    | .ended => .ended
    | .unboundName => .unboundName
    | .fault f => .fault f
    | .refused r => .refused r

/-- How many `gfmul` lines a script has. -/
def gfmulLines : List Line → Nat
  | [] => 0
  | .gfmul _ _ :: rest => gfmulLines rest + 1
  | .recv _ :: rest => gfmulLines rest
  | .reset :: rest => gfmulLines rest
  | .idle _ :: rest => gfmulLines rest
  | .host _ _ :: rest => gfmulLines rest
  | .comment _ :: rest => gfmulLines rest

/-- How many `recv` lines a script has. -/
def recvLines : List Line → Nat
  | [] => 0
  | .recv _ :: rest => recvLines rest + 1
  | .gfmul _ _ :: rest => recvLines rest
  | .reset :: rest => recvLines rest
  | .idle _ :: rest => recvLines rest
  | .host _ _ :: rest => recvLines rest
  | .comment _ :: rest => recvLines rest

/-- A script has ended when no line is left, each `gfmul` and `recv` line having had its beat (42_gfmul.md R132). -/
def ScriptState.isEnded (ss : ScriptState) : Bool := ss.lines.isEmpty

end Sys2Proof.Machine
end

