-- ==== Sys2Proof/Safety.lean ====
section
/-! DEFINITION. What counts as a safe state and a safe run: the invariants of 10_state.md R31, the record that says
results come back in order (20_memory.md R48), the latency bounds (42_gfmul.md R125), the host's duties (R130) and the
fairness premise (R127). -/

namespace Sys2Proof.Machine

/-- The record and the queue agree (10_state.md R31, 20_memory.md R48): the results delivered, and then those in
flight, are GFMUL of the operands accepted, in acceptance order. -/
def State.inOrder (s : State) : Prop :=
  s.accepted.map (fun ab => gfmul ab.1 ab.2) = s.delivered ++ s.q.map (·.r)

/-- What one entry owes to the bounds of 42_gfmul.md R125, when the coming edge is e: it was accepted at an edge now
past; if ready, it became so no earlier than t + `LAT_MIN`; max(t, t_prev) is known just when the entry ahead is ready
(or absent), and if the entry is not ready its last edge max(t, t_prev) + `LAT_MAX` is not past. -/
def Entry.onTime (p : Params) (e : Nat) (aheadReady : Bool) (x : Entry) : Prop :=
  x.t < e ∧
  (x.ready = true → x.t + p.latMin < e) ∧
  x.base.isSome = aheadReady ∧
  ∀ b, x.base = some b → x.t ≤ b ∧ b < e ∧ (x.ready = false → e ≤ b + p.latMax)

/-- Every entry along the queue keeps the bounds of 42_gfmul.md R125. -/
def queueOnTime (p : Params) (e : Nat) : Bool → List Entry → Prop
  | _, [] => True
  | aheadReady, x :: rest => x.onTime p e aheadReady ∧ queueOnTime p e x.ready rest

/-- The invariant of a `Running` state (10_state.md R31, 20_memory.md R48, 42_gfmul.md R125). Before the first reset
nothing is tracked (10_state.md R32), and the invariant says nothing. -/
def State.Inv (s : State) : Prop :=
  s.phase = .running →
    s.q.length ≤ s.params.depth ∧ s.inOrder ∧ queueOnTime s.params s.edgeNo true s.q

/-- A step that does not fault. -/
def SafeStep (s : State) : Prop := ∀ f, step s ≠ .fault f

/-- The host's first duty (42_gfmul.md R130): until the first reset it takes no beat and uses no result; the one thing
it must do is drive `rst` (70_reset_and_hazards.md R176). -/
def HostEvent.keepsOff : HostEvent → Bool
  | .edge c => !c.readsR && (c.rst || (!c.reqValid && !c.rspReady))
  | .powerLoss => true

/-- The coming event does not reset the block or cut its power. -/
def HostEvent.noReset : HostEvent → Bool
  | .edge c => !c.rst
  | .powerLoss => false

/-- Whether `avail` is drawn 1 at the coming edge (10_state.md R30). -/
def State.availNext (s : State) : Bool :=
  match s.nextEvent with
  | .edge c => (s.nextDraw c).avail
  | .powerLoss => false

/-- An infinite run of the block. -/
def IsRun (run : Nat → State) : Prop := ∀ n, step (run n) = .next (run (n + 1))

/-- Fairness (i) of 42_gfmul.md R127: "While `phase = Running`, `rst` stays 0 and `length(q) < DEPTH`, the draw `avail`
is not 0 at every edge from some edge onwards". -/
def FairAvail (run : Nat → State) : Prop :=
  ∀ n, (∀ m, n ≤ m → (run m).phase = .running ∧ (run m).nextEvent.noReset = true ∧
      (run m).q.length < (run m).params.depth) →
    ∃ m, n ≤ m ∧ (run m).availNext = true

/-- Two queues that differ in nothing but the results they hold. -/
def sameTiming : List Entry → List Entry → Prop
  | [], [] => True
  | x :: xs, y :: ys => x.ready = y.ready ∧ x.t = y.t ∧ x.base = y.base ∧ sameTiming xs ys
  | [], _ :: _ => False
  | _ :: _, [] => False

/-- Two states of the block that differ in nothing but operand values and results, past and present: what the
constant-time rule (70_reset_and_hazards.md R181) says cannot be told from timing. -/
structure SameControl (s s' : State) : Prop where
  params : s.params = s'.params
  phase : s.phase = s'.phase
  queue : sameTiming s.q s'.q
  hist : s.hist = s'.hist
  draws : s.draws = s'.draws

/-- What timing may see of an event: all but the operands (70_reset_and_hazards.md R181). -/
def HostEvent.control : HostEvent → Seen × Bool
  | .edge c => (c.seen, c.readsR)
  | .powerLoss => (.powerLoss, false)

end Sys2Proof.Machine
end

