-- ==== Sys2Proof/Claims.lean ====
section
/-! DEFINITION. Words the statements use and the machine does not: the polynomial of a bit vector (00_scope.md R11), the
GCM polynomial (R3), and one edge of a `Running` block as a premise. -/

namespace Sys2Proof

open Polynomial

/-- The polynomial of a vector: bit i is the coefficient of x^i, over GF(2) (00_scope.md R11). -/
noncomputable def polyOf {w : Nat} (v : BitVec w) : (ZMod 2)[X] :=
  ∑ i ∈ Finset.range w, if v.getLsbD i = true then X ^ i else 0

/-- P(x) = x^128 + x^7 + x^2 + x + 1 (00_scope.md R3). -/
noncomputable def gcmPoly : (ZMod 2)[X] := X ^ 128 + X ^ 7 + X ^ 2 + X + 1

namespace Machine

/-- The coming event of a `Running` block is an edge with these inputs and `rst` = 0. -/
structure RunningEdge (s : State) (c : HostCycle) : Prop where
  phase : s.phase = .running
  event : s.nextEvent = .edge c
  rst : c.rst = false

/-- `req_ready` of the coming cycle of a `Running` block with `rst` = 0 and inputs c (10_state.md R30). -/
def State.canAccept (s : State) (c : HostCycle) : Bool :=
  decide (s.q.length < s.params.depth) && (s.nextDraw c).avail

/-- Whether the coming edge delivers, for a `Running` block with `rst` = 0 and inputs c (42_gfmul.md R126). -/
def State.delivers (s : State) (c : HostCycle) : Bool := headReady s.q && c.rspReady

/-- The results in flight after any deliver of the coming edge, oldest first (42_gfmul.md R126). -/
def State.keptResults (s : State) (c : HostCycle) : List Elem :=
  if s.delivers c then (s.q.map (·.r)).tail else s.q.map (·.r)

/-- The entries in flight after any deliver of the coming edge (42_gfmul.md R126). -/
def State.keptQueue (s : State) (c : HostCycle) : List Entry := if s.delivers c then s.q.tail else s.q

/-- The entries in flight after the deliver and the accept of the coming edge, of which some may become ready at it: q2 of
42_gfmul.md R128. -/
def State.queueToComplete (s : State) (c : HostCycle) : List Entry :=
  s.keptQueue c ++
    (if c.reqValid && s.canAccept c then [⟨gfmul c.reqA c.reqB, false, s.edgeNo, none⟩] else [])

/-- The host's first n events, all fixed, are edges with `rst` = 0 and this `rsp_ready`. -/
def State.hostHolds (s : State) (n : Nat) (rspReady : Bool) : Prop :=
  n ≤ s.host.length ∧
    ∀ ev ∈ s.host.take n, ∃ c : HostCycle, ev = .edge c ∧ c.rst = false ∧ c.rspReady = rspReady

end Machine

end Sys2Proof
end

