-- ==== Sys2Proof/Certificates/Slice0/Obligations.lean ====
section
/-! DEFINITION. The statements for the provers, from the spec's rules. None is proved here. -/

open Sys2Proof Sys2Proof.Machine

/-! ### Notation and encoding -/

/-- 00_scope.md R10: the pair (low, high) and the four words of a 256-bit value. -/
def Obligations.WordOrderOfElementAndProduct : Prop :=
  (∀ low high : Word, lo (elem low high) = low ∧ hi (elem low high) = high) ∧
  (∀ v : Elem, elem (lo v) (hi v) = v ∧
    (∀ i < 64, (lo v).getLsbD i = v.getLsbD i ∧ (hi v).getLsbD i = v.getLsbD (64 + i))) ∧
  (∀ x : WideProduct, wideOfVec (wideVec x) = x ∧
    (∀ i < 64, (wideVec x).getLsbD i = x.x0.getLsbD i ∧ (wideVec x).getLsbD (64 + i) = x.x1.getLsbD i ∧
      (wideVec x).getLsbD (128 + i) = x.x2.getLsbD i ∧ (wideVec x).getLsbD (192 + i) = x.x3.getLsbD i))

/-- 00_scope.md section 4, the "standard multi-word shift": on a pair it is the 128-bit shift, bits past 127 lost. -/
def Obligations.PairShiftIsTruncatingShift : Prop :=
  ∀ (n : Nat) (t : Elem), 0 < n → n < 64 → shlPair n t = t <<< n

/-- 30_encoding.md R61: the fields of REQ, whose word is `req_b` above `req_a`. -/
def Obligations.RequestWordFields : Prop :=
  ∀ (a b : Elem) (a0 a1 b0 b1 : Word), decodeReq (reqOfPorts a b) = .gfmul a0 a1 b0 b1 ↔
    ∀ i < 64,
      (a0.getLsbD i = (reqOfPorts a b).getLsbD i ∧ a0.getLsbD i = a.getLsbD i) ∧
      (a1.getLsbD i = (reqOfPorts a b).getLsbD (64 + i) ∧ a1.getLsbD i = a.getLsbD (64 + i)) ∧
      (b0.getLsbD i = (reqOfPorts a b).getLsbD (128 + i) ∧ b0.getLsbD i = b.getLsbD i) ∧
      (b1.getLsbD i = (reqOfPorts a b).getLsbD (192 + i) ∧ b1.getLsbD i = b.getLsbD (64 + i))

/-- 30_encoding.md R63: there is one operation, the decoder is the constant function GFMUL with the four fields, and
every 256-bit word selects it. -/
def Obligations.EveryBeatIsGfmul : Prop :=
  (∀ i : Instr, ∃ a0 a1 b0 b1, i = .gfmul a0 a1 b0 b1) ∧
  (∀ req : BitVec 256, decodeReq req =
    .gfmul (req.extractLsb 63 0) (req.extractLsb 127 64) (req.extractLsb 191 128) (req.extractLsb 255 192)) ∧
  (∀ w : Nat, decodeTableWord 256 w = some (decodeReq (BitVec.ofNat 256 w)))

/-- A beat written as bytes has 256 bits, no fewer and no more (30_encoding.md section 2). That another length is rejected,
and by which name, is the model's choice (log 9). -/
def Obligations.BeatsAreThirtyTwoBytes : Prop :=
  (∀ bytes : List Byte, bytes.length = 32 → ∃ a0 a1 b0 b1, decode bytes = .ok (.gfmul a0 a1 b0 b1)) ∧
  (∀ bytes : List Byte, bytes.length < 32 → decode bytes = .error .shortBeat) ∧
  (∀ bytes : List Byte, 32 < bytes.length → decode bytes = .error .longBeat) ∧
  (∀ bytes : List Byte, wfBeat bytes = true ↔ ∃ i, decode bytes = .ok i)

/-- Decode and encode agree, both ways, over words and over bytes: no bit of a request is dropped. The byte order is
the model's choice (log 9). -/
def Obligations.EncodeDecodeRoundTrip : Prop :=
  (∀ i : Instr, i.wf = true → decodeReq (encode i) = i ∧ decode (encodeBytes i) = .ok i) ∧
  (∀ req : BitVec 256, encode (decodeReq req) = req) ∧
  (∀ (bytes : List Byte) (i : Instr), decode bytes = .ok i → encodeBytes i = bytes)

/-- Words written out in 95_test_vectors.md section 3 decode to the operands of their `gfmul` lines. -/
def Obligations.SampleWordsDecode : Prop :=
  decodeTableWord 256 0x74d42c539a5f3211dc3451f72bd297661e7f4d8e9d4314cf49c56d06735b11c0 =
      some (.gfmul 0x49c56d06735b11c0 0x1e7f4d8e9d4314cf 0xdc3451f72bd29766 0x74d42c539a5f3211) ∧
    decodeTableWord 256 0x8000000000000000000000000000000000000000000000000000000000000002 =
      some (.gfmul 0x2 0x0 0x0 0x8000000000000000) ∧
    decodeTableWord 256 0x0123456789abcdeffedcba987654321000000000000000000000000000000001 =
      some (.gfmul 0x1 0x0 0xfedcba9876543210 0x0123456789abcdef)

/-- 20_memory.md section 2, the map between the GCM form and the internal form. The convention is general knowledge by
the spec's own mark (log 11). -/
def Obligations.GcmFormBitMap : Prop :=
  (∀ (b : Vector Byte 16) (j : Nat) (hj : j < 16) (k : Nat), k < 8 →
    (ofGcm b).getLsbD (8 * j + k) = b[j].getLsbD (7 - k)) ∧
  (∀ (b : Vector Byte 16) (i : Nat), i < 128 →
    (ofGcm b).getLsbD i = (b.toList.foldl (fun n (x : Byte) => 256 * n + x.toNat) 0).testBit (127 - i)) ∧
  (∀ b : Vector Byte 16, toGcm (ofGcm b) = b) ∧ (∀ v : Elem, ofGcm (toGcm v) = v)

/-! ### The carry-less multiplier -/

/-- 40_clmul.md R80: CLMUL64 bit by bit, its corner cases and its example; the parallel primitive is this function. -/
def Obligations.Clmul64BitRule : Prop :=
  (∀ (u v : Word) (k : Nat), k < 128 →
    ((clmul64 u v).getLsbD k = true ↔
      Odd ((Finset.range 64 ×ˢ Finset.range 64).filter fun ij =>
        ij.1 + ij.2 = k ∧ u.getLsbD ij.1 = true ∧ v.getLsbD ij.2 = true).card)) ∧
  (∀ u v : Word, clmul64By .parallel u v = clmul64 u v) ∧
  (∀ v : Word, clmul64 0 v = 0 ∧ clmul64 v 0 = 0 ∧ clmul64 1 v = v.setWidth 128) ∧
  (∀ u v : Word, (clmul64 u v).getLsbD 127 = false ∧ clmul64 u v = clmul64 v u) ∧
  clmul64 3 3 = 5 ∧ clmul64 0x2 0x3 = 0x6

/-- 40_clmul.md section 1, the iterative backend: its loop from bit 0 upwards, its equality with CLMUL64 (an inference
of the spec) and its example. -/
def Obligations.IterativeEqualsPrimitive : Prop :=
  ∀ u v : Word,
    clmul64Iter u v =
      (List.range 64).foldl (fun acc i => if v.getLsbD i then acc ^^^ (u.setWidth 128 <<< i) else acc) 0 ∧
    clmul64Iter u v = clmul64 u v ∧ clmul64Iter u v = clmul64Iter v u ∧
    clmul64Iter 0x8000000000000000 0xff = 0x7f8000000000000000

/-- 40_clmul.md R82: the assembly of the product from three 64x64 products, whichever backend computes them, the
cross-term identity behind it, and the corner cases and example. -/
def Obligations.KaratsubaAssembly : Prop :=
  (∀ (impl : ClmulImpl) (a b : Elem),
    let c := clmul64 (hi a) (hi b)
    let d := clmul64 (lo a) (lo b)
    let e := clmul64 (lo a ^^^ hi a) (lo b ^^^ hi b)
    clmul128By impl a b =
        { x3 := hi c, x2 := lo c ^^^ hi c ^^^ hi d ^^^ hi e, x1 := hi d ^^^ lo c ^^^ lo d ^^^ lo e, x0 := lo d } ∧
      e ^^^ c ^^^ d = clmul64 (lo a) (hi b) ^^^ clmul64 (hi a) (lo b) ∧
      (clmul128By impl a b).x3.getLsbD 63 = false) ∧
  (∀ a : Elem, clmul128 a 0 = ⟨0, 0, 0, 0⟩ ∧ clmul128 0 a = ⟨0, 0, 0, 0⟩) ∧
  (∀ (a : Elem) (i : Nat), i < 128 →
    (wideVec (clmul128 a a)).getLsbD (2 * i) = a.getLsbD i ∧ (wideVec (clmul128 a a)).getLsbD (2 * i + 1) = false) ∧
  clmul128 (BitVec.allOnes 128) (BitVec.allOnes 128) =
    ⟨0x5555555555555555, 0x5555555555555555, 0x5555555555555555, 0x5555555555555555⟩ ∧
  clmul128 (BitVec.twoPow 128 127) (BitVec.twoPow 128 127) = ⟨0, 0, 0, 0x4000000000000000⟩ ∧
  clmul128 (BitVec.twoPow 128 64) (BitVec.twoPow 128 64) = ⟨0, 0, 1, 0⟩

/-- 40_clmul.md section 2 (an inference of the spec): CLMUL128 is the schoolbook product, the product of the two
polynomials, and no backend changes it. -/
def Obligations.ProductIsSchoolbook : Prop :=
  ∀ (impl : ClmulImpl) (a b : Elem),
    wideVec (clmul128By impl a b) =
      (List.range 128).foldl (fun acc i => if b.getLsbD i then acc ^^^ (a.setWidth 256 <<< i) else acc) 0 ∧
    polyOf (wideVec (clmul128By impl a b)) = polyOf a * polyOf b ∧
    clmul128By .parallel a b = clmul128By .iterative a b

/-- 40_clmul.md R84: the product has degree at most 254, and each lower bit can be 1. -/
def Obligations.ProductDegree : Prop :=
  (∀ a b : Elem, (wideVec (clmul128 a b)).getLsbD 255 = false ∧ (clmul128 a b).x3.getLsbD 63 = false) ∧
  (∀ k < 255, ∃ a b : Elem, (wideVec (clmul128 a b)).getLsbD k = true) ∧
  (clmul128 (BitVec.twoPow 128 127) (BitVec.twoPow 128 127)).x3.getLsbD 62 = true

/-! ### The reducer -/

/-- 41_reduce.md R100: the folding written on whole 128-bit halves, with the corner cases and the example. -/
def Obligations.ReduceFolding : Prop :=
  (∀ x : WideProduct,
    let top : Elem := ((x.x3 >>> 63) ^^^ (x.x3 >>> 62) ^^^ (x.x3 >>> 57)).setWidth 128
    let t := elem x.x2 x.x3 ^^^ top
    reduce x = elem x.x0 x.x1 ^^^ t ^^^ (t <<< 1) ^^^ (t <<< 2) ^^^ (t <<< 7)) ∧
  (∀ x0 x1 : Word, reduce ⟨x0, x1, 0, 0⟩ = elem x0 x1) ∧
  reduce ⟨0, 0, 1, 0⟩ = 0x87 ∧
  reduce ⟨0, 0, 0, 0x4000000000000000⟩ = 0xc0000000000000000000000000001067 ∧
  reduce ⟨0, 0, 0, 0x8000000000000000⟩ = 0x80000000000000000000000000002049 ∧
  reduce ⟨0, 0, 0, 0x0200000000000000⟩ = 0x0e000000000000000000000000000087 ∧
  reduce ⟨0xffffffffffffffff, 0xffffffffffffffff, 0xffffffffffffffff, 0xffffffffffffffff⟩ =
    0xffffffffffffffffffffffffffffc071

/-- 41_reduce.md section 1 (an inference of the spec): REDUCE is exact modulo P on every 256-bit input, and its result
is the only 128-bit value congruent to the input. -/
def Obligations.ReduceExactModP : Prop :=
  ∀ x : WideProduct,
    polyOf (reduce x) = polyOf (wideVec x) %ₘ gcmPoly ∧
    ∀ r : Elem, gcmPoly ∣ polyOf r - polyOf (wideVec x) → r = reduce x

/-- 41_reduce.md section 1 (an inference of the spec): REDUCE is linear over XOR. -/
def Obligations.ReduceLinear : Prop :=
  (∀ v w : BitVec 256, reduce (wideOfVec (v ^^^ w)) = reduce (wideOfVec v) ^^^ reduce (wideOfVec w)) ∧
  reduce (wideOfVec 0) = 0

/-! ### GFMUL -/

/-- 42_gfmul.md section 1: GFMUL is the product of the polynomials modulo P, the same for either backend, with the
corner cases and example of R120. That r(x) = a(x)b(x) mod P(x) is an inference of the spec. -/
def Obligations.GfmulIsProductModP : Prop :=
  (∀ a b : Elem, polyOf (gfmul a b) = (polyOf a * polyOf b) %ₘ gcmPoly) ∧
  (∀ (impl : ClmulImpl) (a b : Elem), gfmulBy impl a b = gfmul a b) ∧
  (∀ a : Elem, gfmul a elemZero = elemZero ∧ gfmul a elemOne = a) ∧
  gfmul 0x2 (BitVec.twoPow 128 127) = 0x87 ∧
  gfmul (BitVec.twoPow 128 127) (BitVec.twoPow 128 127) = 0xc0000000000000000000000000001067 ∧
  gfmul (BitVec.allOnes 128) (BitVec.allOnes 128) = 0x5555555555555555555555555555402f ∧
  gfmul (BitVec.twoPow 128 64) (BitVec.twoPow 128 64) = 0x87

/-- 42_gfmul.md R121: the algebraic laws. -/
def Obligations.GfmulFieldLaws : Prop :=
  polyOf elemOne = 1 ∧
  (∀ a b : Elem, gfmul a b = gfmul b a) ∧
  (∀ a : Elem, gfmul a elemOne = a) ∧
  (∀ a : Elem, gfmul a elemZero = elemZero) ∧
  (∀ a b c : Elem, gfmul a (b ^^^ c) = gfmul a b ^^^ gfmul a c) ∧
  (∀ a b c : Elem, gfmul (gfmul a b) c = gfmul a (gfmul b c))

/-- The known-answer test of the source's section 8, NIST GCM test case 2, over the GCM form (95_test_vectors.md
section 1.4; general knowledge by the spec's own mark, log 11): X1 = C * H. -/
def Obligations.GcmKnownAnswer : Prop :=
  gfmul
      (ofGcm #v[0x03, 0x88, 0xda, 0xce, 0x60, 0xb6, 0xa3, 0x92, 0xf3, 0x28, 0xc2, 0xb9, 0x71, 0xb2, 0xfe, 0x78])
      (ofGcm #v[0x66, 0xe9, 0x4b, 0xd4, 0xef, 0x8a, 0x2c, 0x3b, 0x88, 0x4c, 0xfa, 0x59, 0xca, 0x34, 0x2b, 0x2e]) =
    ofGcm #v[0x5e, 0x2e, 0xc7, 0x46, 0x91, 0x70, 0x62, 0x88, 0x2c, 0x85, 0xb0, 0x68, 0x53, 0x53, 0xde, 0xb7]

/-! ### Outputs -/

/-- 10_state.md R30, 70_reset_and_hazards.md R179: the outputs, from the state, `rst` and the draws, with no unspecified
value pinned, and not from `req_valid`, `req_a`, `req_b` or `rsp_ready` of the same cycle. -/
def Obligations.OutputsRule : Prop :=
  (∀ (s : State) (rst : Bool) (o : Outputs), s.phase = .unreset → ∃ d, s.outputs rst d = o) ∧
  (∀ (s : State) (d : Draw), s.phase = .running →
    (s.outputs true d).reqReady = false ∧ (s.outputs true d).rspValid = false ∧ (s.outputs true d).rspR = d.xRspR ∧
    (s.outputs false d).reqReady = (decide (s.q.length < s.params.depth) && d.avail) ∧
    ((s.outputs false d).rspValid = true ↔ ∃ x rest, s.q = x :: rest ∧ x.ready = true) ∧
    (∀ x rest, s.q = x :: rest → x.ready = true → (s.outputs false d).rspR = x.r) ∧
    ((s.outputs false d).rspValid = false → (s.outputs false d).rspR = d.xRspR)) ∧
  (∀ (s : State) (c : HostCycle) (d : Draw), ∃ ds, ({ s with draws := ds } : State).nextDraw c = d) ∧
  (∀ (s : State) (c c' : HostCycle) (evs : List HostEvent), c.rst = c'.rst →
    ({ s with host := .edge c :: evs } : State).outputs c.rst (({ s with host := .edge c :: evs } : State).nextDraw c) =
      ({ s with host := .edge c' :: evs } : State).outputs c'.rst
        (({ s with host := .edge c' :: evs } : State).nextDraw c'))

/-- 42_gfmul.md section 2 (an inference of the spec, R129): an offered result stays offered, with the same value, in
every cycle until the edge that delivers it or resets the block, whatever is drawn. -/
def Obligations.OfferedResultIsStable : Prop :=
  ∀ (s : State) (c : HostCycle) (x : Entry) (rest : List Entry),
    RunningEdge s c → s.q = x :: rest → x.ready = true → c.rspReady = false →
    ∃ t, step s = .next t ∧ ∀ d, (t.outputs false d).rspValid = true ∧ (t.outputs false d).rspR = x.r

/-! ### Steps -/

/-- When the coming cycle presents a request, step is exec of the decoded instruction, which carries the operands on
the ports; else step is the edge with no request, or loss of power. -/
def Obligations.StepRunsDecodedRequest : Prop :=
  (∀ (s : State) (c : HostCycle), s.nextEvent = .edge c → c.reqValid = true →
    (decodeReq (reqOfPorts c.reqA c.reqB)).wf = true ∧
    step s = exec (decodeReq (reqOfPorts c.reqA c.reqB)) s ∧
    decodeReq (reqOfPorts c.reqA c.reqB) = .gfmul (lo c.reqA) (hi c.reqA) (lo c.reqB) (hi c.reqB) ∧
    step s = s.edge c) ∧
  (∀ (s : State) (c : HostCycle), s.nextEvent = .edge c → c.reqValid = false → step s = s.edge c) ∧
  (∀ s : State, s.nextEvent = .powerLoss → step s = .next s.losePower)

/-- 30_encoding.md R65, 60_exceptions.md R150: once the block is `Running`, no request word and nothing else the host
does ends in a fault or a refusal, and no operation is ever refused. -/
def Obligations.NoRequestWordStops : Prop :=
  (∀ (i : Instr) (s : State), s.phase = .running → ∃ t, exec i s = .next t) ∧
  (∀ s : State, s.phase = .running → ∃ t, step s = .next t) ∧
  (∀ (i : Instr) (s : State) (r : Refusal), exec i s ≠ .refused r ∧ step s ≠ .refused r)

/-- GFMUL is accepted (42_gfmul.md R124). With room in the queue and `avail` drawn 1, the edge that presents it appends
GFMUL(a, b) at the tail after any deliver of that edge, and the queue keeps within `DEPTH`. After the whole edge the new entry
is not ready unless `LAT_MIN` = 0 (R125 (a), R128). That it keeps the number of its accepting edge is the model's deduction
(log 4), and the two records of beats are the model's choice (log 5). -/
def Obligations.GfmulAcceptAppendsProduct : Prop :=
  ∀ (s : State) (c : HostCycle) (a0 a1 b0 b1 : Word), RunningEdge s c → s.canAccept c = true →
    ∃ t, exec (.gfmul a0 a1 b0 b1) s = .next t ∧
      t.q.map (·.r) = s.keptResults c ++ [gfmul (elem a0 a1) (elem b0 b1)] ∧
      t.accepted = s.accepted ++ [(elem a0 a1, elem b0 b1)] ∧
      t.delivered = s.delivered ++ (if s.delivers c then (s.q.map (·.r)).take 1 else []) ∧
      (∀ x, t.q.getLast? = some x → x.t = s.edgeNo ∧ (x.ready = true → s.params.latMin = 0)) ∧
      t.phase = .running ∧ t.params = s.params ∧ t.q.length ≤ s.params.depth

/-- What an edge that presents GFMUL leaves unchanged, accepted or not: the parameters, the phase, and every entry that
stays in flight but for its `ready`, which can only rise, and for max(t, t_prev), which is set once. The records grow
only by beats. The edge's event and draws are spent. The block has no register, flag or memory to change. -/
def Obligations.GfmulFrame : Prop :=
  ∀ (s t : State) (c : HostCycle) (a0 a1 b0 b1 : Word),
    RunningEdge s c → exec (.gfmul a0 a1 b0 b1) s = .next t →
    t.params = s.params ∧ t.phase = s.phase ∧
    t.hist = .edge false true c.rspReady :: s.hist ∧ t.host = s.host.tail ∧ t.draws = s.draws.tail ∧
    t.accepted = s.accepted ++ (if s.canAccept c then [(elem a0 a1, elem b0 b1)] else []) ∧
    t.delivered = s.delivered ++ (if s.delivers c then (s.q.map (·.r)).take 1 else []) ∧
    t.q.length = (s.keptQueue c).length + (if s.canAccept c then 1 else 0) ∧
    ∀ (i : Nat) (x : Entry), (s.keptQueue c)[i]? = some x →
      ∃ y : Entry, t.q[i]? = some y ∧ y.r = x.r ∧ y.t = x.t ∧ (x.ready = true → y.ready = true) ∧
        (∀ b, x.base = some b → y.base = some b)

/-- The operands are those sampled at the accepting edge (42_gfmul.md R123), and timing does not depend on them
(70_reset_and_hazards.md R181). The same cycle with other operands gives the same next state when the request is not accepted,
and when it is, a state that differs only in the new result and its record. The record, and the two numbers of an entry, are
fields of the model's own (log 4, log 5). A cycle that presents no request accepts nothing, which BeatsAreValidAndReady
states. -/
def Obligations.OperandsAreThoseSampled : Prop :=
  ∀ (s : State) (c : HostCycle) (a b : Elem) (evs : List HostEvent),
    s.host = .edge c :: evs → s.phase = .running → c.rst = false → c.reqValid = true →
    ∃ t t', step s = .next t ∧
      step { s with host := .edge { c with reqA := a, reqB := b } :: evs } = .next t' ∧
      (s.canAccept c = false → t' = t) ∧
      (s.canAccept c = true →
        t.accepted = s.accepted ++ [(c.reqA, c.reqB)] ∧ t'.accepted = s.accepted ++ [(a, b)] ∧
        t.q.map (·.r) = s.keptResults c ++ [gfmul c.reqA c.reqB] ∧
        t'.q.map (·.r) = s.keptResults c ++ [gfmul a b] ∧
        t'.q.map (fun e => (e.ready, e.t, e.base)) = t.q.map (fun e => (e.ready, e.t, e.base)) ∧
        { t with q := t'.q, accepted := t'.accepted } = t')

/-- Deliver (42_gfmul.md R126): the host receives the head's result, and the head leaves the queue; with `rsp_valid` = 0 nothing
is delivered or dropped, whatever `rsp_ready` is. Either way the only result that joins the queue is that of a request accepted
at the edge (R124). That the host receives a result is read off its record, a field of the model's own (log 5). -/
def Obligations.DeliverRemovesHead : Prop :=
  (∀ (s : State) (c : HostCycle) (x : Entry) (rest : List Entry),
    RunningEdge s c → s.q = x :: rest → x.ready = true → c.rspReady = true →
    ∃ t new, step s = .next t ∧ t.delivered = s.delivered ++ [x.r] ∧ t.q.map (·.r) = rest.map (·.r) ++ new ∧
      new = if c.reqValid && s.canAccept c then [gfmul c.reqA c.reqB] else []) ∧
  (∀ (s : State) (c : HostCycle), RunningEdge s c → headReady s.q = false →
    ∃ t new, step s = .next t ∧ t.delivered = s.delivered ∧ t.q.map (·.r) = s.q.map (·.r) ++ new ∧
      new = if c.reqValid && s.canAccept c then [gfmul c.reqA c.reqB] else [])

/-- 42_gfmul.md R128: the edge function of a `Running` block, by queue: reset, or deliver, then accept, then complete,
with the outputs of the old state. -/
def Obligations.EdgeFunction : Prop :=
  (∀ (s : State) (c : HostCycle) (d : Draw), s.phase = .running → c.rst = true →
    ∃ t, s.edgeWith c d = .next t ∧ t.phase = .running ∧ t.q = []) ∧
  (∀ (s : State) (c : HostCycle) (d : Draw), s.phase = .running → c.rst = false →
    ∃ t, s.edgeWith c d = .next t ∧ t.phase = .running ∧
      t.q = completeFrom s.params s.edgeNo d.completes 0 true
        ((if (s.outputs c.rst d).rspValid && c.rspReady then s.q.tail else s.q) ++
          (if c.reqValid && (s.outputs c.rst d).reqReady then [⟨gfmul c.reqA c.reqB, false, s.edgeNo, none⟩] else [])))

/-- A beat happens just when the block is `Running`, `rst` = 0, and valid and ready are both 1, and one edge carries at most one
accept and one deliver, and can carry both (30_encoding.md R60, 60_exceptions.md R153). Beats are read off the two records, the
model's own: that an edge with `rst` = 1 empties them is how it shows that no beat happens there, and that an edge before the
first reset keeps them is its choice (log 5). -/
def Obligations.BeatsAreValidAndReady : Prop :=
  (∀ (s : State) (c : HostCycle), RunningEdge s c →
    ∃ t, step s = .next t ∧
      t.accepted = s.accepted ++
        (if c.reqValid && (s.outputs c.rst (s.nextDraw c)).reqReady then [(c.reqA, c.reqB)] else []) ∧
      t.delivered = s.delivered ++
        (if (s.outputs c.rst (s.nextDraw c)).rspValid && c.rspReady
          then [(s.outputs c.rst (s.nextDraw c)).rspR] else [])) ∧
  (∀ (s t : State) (c : HostCycle), s.nextEvent = .edge c → c.rst = true → step s = .next t →
    t.accepted = [] ∧ t.delivered = []) ∧
  (∀ (s t : State) (c : HostCycle), s.phase = .unreset → s.nextEvent = .edge c → c.rst = false → step s = .next t →
    t.accepted = s.accepted ∧ t.delivered = s.delivered) ∧
  (∃ (s t : State) (c : HostCycle), RunningEdge s c ∧ step s = .next t ∧
    t.accepted.length = s.accepted.length + 1 ∧ t.delivered.length = s.delivered.length + 1)

/-- 42_gfmul.md R125, R128 as the model keeps them (log 4), for every entry in flight at an edge and for the one accepted at
it: its place, result and accepting edge stay; when an entry not yet ready may become ready, must, and cannot; that it stays
ready; and when max(t, t_prev) is fixed. -/
def Obligations.ReadyEdgeBounds : Prop :=
  ∀ (s t : State) (c : HostCycle), RunningEdge s c → step s = .next t →
    t.q.length = (s.queueToComplete c).length ∧
    ∀ (i : Nat) (x : Entry), (s.queueToComplete c)[i]? = some x →
      ∃ y : Entry, t.q[i]? = some y ∧ y.r = x.r ∧ y.t = x.t ∧
        (x.ready = true → y.ready = true) ∧
        (x.ready = false → y.ready = true → x.t + s.params.latMin ≤ s.edgeNo) ∧
        (x.ready = false → x.t + s.params.latMin ≤ s.edgeNo → i ∈ (s.nextDraw c).completes → y.ready = true) ∧
        (x.ready = false → i ∉ (s.nextDraw c).completes →
          (∀ b, y.base = some b → s.edgeNo < b + s.params.latMax) → y.ready = false) ∧
        (∀ b, y.base = some b → x.t ≤ b → b + s.params.latMax ≤ s.edgeNo → y.ready = true) ∧
        (∀ b, x.base = some b → y.base = some b) ∧
        (x.base = none → (i = 0 ∨ ∃ z, t.q[i - 1]? = some z ∧ z.ready = true) → y.base = some s.edgeNo) ∧
        (x.base = none → i ≠ 0 → (∀ z, t.q[i - 1]? = some z → z.ready = false) → y.base = none)

/-- Looking at `rsp_r` has no effect on a `Running` block (20_memory.md section 3). -/
def Obligations.LookingHasNoEffect : Prop :=
  ∀ (s : State) (c : HostCycle) (evs : List HostEvent) (looks : Bool),
    s.phase = .running → s.host = .edge c :: evs →
    step { s with host := .edge { c with readsR := looks } :: evs } = step s

/-! ### Reset, power and the Unreset phase -/

/-- One edge with `rst` = 1 is a complete reset, in either phase; a second changes nothing more; and what the outputs are then
(10_state.md R32, 70_reset_and_hazards.md R170, R172, R173, R175). The premise that in the `Unreset` phase the host does not use
`rsp_r` at that edge is the model's choice (log 6), as are its own fields: the history, the coming events and the draws
(log 1, log 2), the parameters in State (log 3) and the two records (log 5). -/
def Obligations.ResetEffect : Prop :=
  (∀ (s : State) (c : HostCycle), s.nextEvent = .edge c → c.rst = true →
    (s.phase = .unreset → c.readsR = false) →
    ∃ t, step s = .next t ∧ t.phase = .running ∧ t.q = [] ∧ t.accepted = [] ∧ t.delivered = [] ∧
      t.params = s.params ∧ t.hist = c.seen :: s.hist ∧ t.host = s.host.tail ∧ t.draws = s.draws.tail ∧
      (∀ d, (t.outputs false d).rspValid = false ∧ (t.outputs false d).reqReady = d.avail) ∧
      (∀ c', t.nextEvent = .edge c' → c'.rst = true →
        ∃ t', step t = .next t' ∧ t'.phase = t.phase ∧ t'.q = t.q ∧ t'.accepted = t.accepted ∧
          t'.delivered = t.delivered)) ∧
  (∀ (s : State) (d : Draw), s.phase = .running →
    (s.outputs true d).reqReady = false ∧ (s.outputs true d).rspValid = false)

/-- A request presented at a reset edge is not accepted (70_reset_and_hazards.md R174, an inference of the spec):
exec of GFMUL there is the reset. -/
def Obligations.GfmulAtResetEdgeIsLost : Prop :=
  ∀ (s : State) (c : HostCycle) (a0 a1 b0 b1 : Word),
    s.phase = .running → s.nextEvent = .edge c → c.rst = true →
    ∃ t, exec (.gfmul a0 a1 b0 b1) s = .next t ∧ t.phase = .running ∧ t.q = [] ∧ t.accepted = [] ∧ t.delivered = []

/-- UsedBeforeReset is the one fault, raised just when, in the `Unreset` phase, the host takes a beat or uses `rsp_r` as a
result (60_exceptions.md R152). That a beat there needs `rst` = 0, and valid and ready both 1 by the outputs the host sees, is
the model's deduction, and that a use of `rsp_r` faults even at the edge that resets the block is its choice (log 6). -/
def Obligations.FaultIsUseBeforeReset : Prop :=
  ∀ (s : State) (f : Fault), step s = .fault f ↔
    f = .usedBeforeReset ∧ s.phase = .unreset ∧ ∃ c : HostCycle, s.nextEvent = .edge c ∧
      (c.readsR = true ∨
        (c.rst = false ∧
          ((c.reqValid = true ∧ (s.outputs c.rst (s.nextDraw c)).reqReady = true) ∨
            (c.rspReady = true ∧ (s.outputs c.rst (s.nextDraw c)).rspValid = true))))

/-- Before the first reset every output can be anything, an edge with `rst` = 0 at which the host takes no beat and uses no
result leaves the phase `Unreset`, and a beat is the fault; an edge with `rst` = 1 at which it uses no result resets
(70_reset_and_hazards.md R171, R172). What a beat is in this phase, and the premises on `readsR`, are the model's (log 6). The
spec does not track q there, and that the list standing for it and the two records stay is the model's choice (log 5,
log 8). -/
def Obligations.UnresetEdge : Prop :=
  (∀ (s : State) (rst : Bool) (o : Outputs), s.phase = .unreset → ∃ d, s.outputs rst d = o) ∧
  (∀ (s : State) (c : HostCycle), s.phase = .unreset → s.nextEvent = .edge c → c.rst = false →
    ((c.reqValid && (s.outputs c.rst (s.nextDraw c)).reqReady) = true ∨
      (c.rspReady && (s.outputs c.rst (s.nextDraw c)).rspValid) = true → step s = .fault .usedBeforeReset) ∧
    ((c.reqValid && (s.outputs c.rst (s.nextDraw c)).reqReady) = false →
      (c.rspReady && (s.outputs c.rst (s.nextDraw c)).rspValid) = false → c.readsR = false →
      ∃ t, step s = .next t ∧ t.phase = .unreset ∧ t.params = s.params ∧ t.q = s.q ∧ t.accepted = s.accepted ∧
        t.delivered = s.delivered)) ∧
  (∀ (s : State) (c : HostCycle), s.phase = .unreset → s.nextEvent = .edge c → c.rst = true → c.readsR = false →
    ∃ t, step s = .next t ∧ t.phase = .running ∧ t.q = [])

/-- Before the first reset nothing reads q (10_state.md section 5): with another q the step ends the same, and leaves
the same state but for q, and the very same state once it is `Running`. -/
def Obligations.UnresetQueueIsNotRead : Prop :=
  ∀ (s : State) (q' : List Entry), s.phase = .unreset →
    (∀ f, step s = .fault f ↔ step { s with q := q' } = .fault f) ∧
    (∀ t, step s = .next t → ∃ t', step { s with q := q' } = .next t' ∧ { t with q := t'.q } = t' ∧
      (t.phase = .running → t' = t))

/-- A host that keeps its first duty never meets the fault (42_gfmul.md R130, 70_reset_and_hazards.md R176). -/
def Obligations.DutifulHostIsSafe : Prop :=
  (∀ s : State, (s.phase = .unreset → s.nextEvent.keepsOff = true) → SafeStep s) ∧
  (∀ (s t : State), s.phase = .running → s.nextEvent ≠ .powerLoss → step s = .next t → t.phase = .running)

/-- Loss of power (60_exceptions.md R162; log 7), with or without a request in mind: `Unreset`, and q is lost. -/
def Obligations.PowerLossLosesQueue : Prop :=
  ∀ (s : State) (i : Instr), s.nextEvent = .powerLoss →
    ∃ t, step s = .next t ∧ exec i s = .next t ∧ t.phase = .unreset ∧ t.q = [] ∧ t.params = s.params ∧
      t.accepted = s.accepted ∧ t.delivered = s.delivered ∧ t.draws = s.draws

/-- 00_scope.md R8: the parameters are in range and no step changes them. -/
def Obligations.ParametersAreFixed : Prop :=
  (∀ p : Params, 1 ≤ p.depth ∧ p.latMin ≤ p.latMax) ∧
  (∀ depth latMin latMax : Nat, 1 ≤ depth → latMin ≤ latMax → ∀ impl : ClmulImpl, ∃ p : Params,
    p.impl = impl ∧ p.depth = depth ∧ p.latMin = latMin ∧ p.latMax = latMax) ∧
  (∀ (s t : State), step s = .next t → t.params = s.params) ∧
  (∀ (i : Instr) (s t : State), exec i s = .next t → t.params = s.params)

/-! ### Invariants and runs -/

/-- The state after reset meets the invariant, and so does the state at power-on. -/
def Obligations.ResetMeetsInvariant : Prop :=
  State.reset.Inv ∧ State.powerOn.Inv ∧ State.reset.phase = .running ∧ State.reset.q = [] ∧
    State.powerOn.phase = .unreset

/-- Every step keeps the invariant (10_state.md R31, an inference of the spec): a `Running` block has at most `DEPTH`
operations in flight, the results delivered and in flight are GFMUL of the operands accepted, in order, and every entry
is within its latency bounds. -/
def Obligations.EveryStepKeepsInvariant : Prop :=
  (∀ s t : State, s.Inv → step s = .next t → t.Inv) ∧
  (∀ (i : Instr) (s t : State), s.Inv → exec i s = .next t → t.Inv)

/-- From a reset, over any number of steps and any resets among them, whatever the host does and is drawn: deliver beat k
carries the result of accept beat k (20_memory.md R48), no more is delivered than accepted, and at most `DEPTH` are in flight
(10_state.md R31, 42_gfmul.md R131, inferences of the spec; 00_scope.md R8); and a step that does not reset the block only adds
to the two records, so that nothing is dropped, duplicated or reordered. The records are the model's own (log 5). -/
def Obligations.ResultsComeInAcceptanceOrder : Prop :=
  (∀ (n : Nat) (s t : State),
    s.phase = .running → s.q = [] → s.accepted = [] → s.delivered = [] →
    Sys2Proof.core.run n s = .next t → t.phase = .running →
    t.delivered.length ≤ t.accepted.length ∧
    t.accepted.length ≤ t.delivered.length + t.params.depth ∧
    ∀ k < t.delivered.length, ∃ a b, t.accepted[k]? = some (a, b) ∧ t.delivered[k]? = some (gfmul a b)) ∧
  (∀ s t : State, s.phase = .running → s.nextEvent.noReset = true → step s = .next t →
    s.accepted <+: t.accepted ∧ s.delivered <+: t.delivered)

/-- The host drains by counting beats (20_memory.md R49, an inference of the spec). -/
def Obligations.DrainedWhenCountsAgree : Prop :=
  ∀ s : State, s.Inv → s.phase = .running → (s.q = [] ↔ s.accepted.length = s.delivered.length)

/-- Timing never depends on operand values (70_reset_and_hazards.md R181): two blocks that differ in nothing but operands
and results, past and present, and see the same control inputs, drive the same handshake, and either both fault or both
go on to states that again differ in nothing but operands and results. -/
def Obligations.ConstantTime : Prop :=
  ∀ s s' : State, SameControl s s' → s.nextEvent.control = s'.nextEvent.control →
    (∀ c c' : HostCycle, c.seen = c'.seen →
      (s.outputs c.rst (s.nextDraw c)).reqReady = (s'.outputs c'.rst (s'.nextDraw c')).reqReady ∧
      (s.outputs c.rst (s.nextDraw c)).rspValid = (s'.outputs c'.rst (s'.nextDraw c')).rspValid) ∧
    ((∃ f, step s = .fault f ∧ step s' = .fault f) ∨
      ∃ t t', step s = .next t ∧ step s' = .next t' ∧ SameControl t t')

/-- A host that does not raise `rsp_ready` while the queue is full waits for ever (70_reset_and_hazards.md R178 (f)): after
any number of edges nothing more is accepted or delivered, and the results are kept. It is stuck, not a fault. -/
def Obligations.FullQueueWaits : Prop :=
  ∀ (n : Nat) (s : State), s.phase = .running → s.params.depth ≤ s.q.length → s.hostHolds n false →
    ∃ t, Sys2Proof.core.run n s = .next t ∧ t.phase = .running ∧ t.accepted = s.accepted ∧
      t.delivered = s.delivered ∧ t.q.map (·.r) = s.q.map (·.r)

/-- Every entry becomes ready (42_gfmul.md R127 (ii), by the bound of R125 (b)): the entry at position i within
(i + 1) * `LAT_MAX` edges, while `rst` stays 0 and the host takes nothing. -/
def Obligations.EveryEntryBecomesReady : Prop :=
  ∀ (n i : Nat) (s : State) (x : Entry), s.Inv → s.phase = .running → s.q[i]? = some x →
    (i + 1) * s.params.latMax ≤ n → s.hostHolds n false →
    ∃ t y, Sys2Proof.core.run n s = .next t ∧ t.q[i]? = some y ∧ y.r = x.r ∧ y.ready = true

/-- The whole of one operation: a request the block accepts with nothing else in flight, and a host that then waits with
`rsp_ready` = 1, and the host has received GFMUL(a, b) within `LAT_MAX` + 2 edges, with nothing left in flight. -/
def Obligations.GfmulDeliversItsProduct : Prop :=
  ∀ (s : State) (c : HostCycle) (evs : List HostEvent),
    s.phase = .running → s.q = [] → s.host = .edge c :: evs → c.rst = false → c.reqValid = true →
    s.canAccept c = true → s.params.latMax + 1 ≤ evs.length →
    (∀ ev ∈ evs.take (s.params.latMax + 1),
      ∃ w : HostCycle, ev = .edge w ∧ w.rst = false ∧ w.reqValid = false ∧ w.rspReady = true) →
    ∃ t, Sys2Proof.core.run (s.params.latMax + 2) s = .next t ∧
      t.delivered = s.delivered ++ [gfmul c.reqA c.reqB] ∧ t.accepted = s.accepted ++ [(c.reqA, c.reqB)] ∧
      t.q = [] ∧ t.phase = .running

/-- A fair block serves a host that keeps presenting requests and taking results without reset (42_gfmul.md R127): once
`LAT_MAX` + 1 edges have passed the queue cannot still be full, so the first edge after them at which `avail` is drawn 1
accepts a request, if none was accepted before it. -/
def Obligations.FairBlockServesRequest : Prop :=
  ∀ (j : Nat) (s : State), s.Inv → s.phase = .running →
    j + 1 ≤ s.host.length →
    (∀ ev ∈ s.host.take (j + 1),
      ∃ c : HostCycle, ev = .edge c ∧ c.rst = false ∧ c.reqValid = true ∧ c.rspReady = true) →
    s.params.latMax + 1 ≤ j → (∃ d : Draw, s.draws[j]? = some d ∧ d.avail = true) →
    ∃ t, Sys2Proof.core.run (j + 1) s = .next t ∧ s.accepted.length < t.accepted.length

/-! ### Scripts -/

/-- The `gfmul` and `recv` lines of a script on a `Running` block (30_encoding.md section 4; log 12): a `gfmul` line is
done just when its request is accepted, and a `recv` line just when a result is delivered, whose value it binds. -/
def Obligations.ScriptLinesTakeTheirBeats : Prop :=
  (∀ (ss : ScriptState) (a b : Operand) (rest : List Line) (v w : Elem),
    ss.lines = .gfmul a b :: rest → a.value ss.env = some v → b.value ss.env = some w → ss.block.phase = .running →
    ∃ t, scriptStep ss = .next t ∧ t.env = ss.env ∧
      if ss.block.canAccept (gfmulCycle v w)
      then t.lines = rest ∧ t.block.accepted = ss.block.accepted ++ [(v, w)]
      else t.lines = ss.lines ∧ t.block.accepted = ss.block.accepted) ∧
  (∀ (ss : ScriptState) (n : String) (rest : List Line),
    ss.lines = .recv n :: rest → ss.block.phase = .running →
    ∃ t, scriptStep ss = .next t ∧
      ((∃ x xs, ss.block.q = x :: xs ∧ x.ready = true ∧ t.lines = rest ∧ t.env = (n, x.r) :: ss.env ∧
          t.block.delivered = ss.block.delivered ++ [x.r]) ∨
        (headReady ss.block.q = false ∧ t.lines = ss.lines ∧ t.env = ss.env ∧
          t.block.delivered = ss.block.delivered)))

/-- A script that has ended, with as many `recv` as `gfmul` lines and no reset since the block was empty, leaves q empty
(42_gfmul.md R132; log 12). -/
def Obligations.EndedScriptHasDrained : Prop :=
  ∀ (m : Nat) (ss t : ScriptState),
    ss.block.Inv → ss.block.phase = .running → ss.block.accepted = [] → ss.block.delivered = [] →
    (∀ l ∈ ss.lines, l ≠ .reset) → gfmulLines ss.lines = recvLines ss.lines →
    scriptRun m ss = .next t → t.isEnded = true →
    t.block.q = [] ∧ t.block.phase = .running ∧ t.block.accepted.length = gfmulLines ss.lines

/-- What the block accepts of a script is the script's encoding, "the sequence of REQ words of its `gfmul` lines"
(30_encoding.md section 4), where its `recv` lines take the results the block delivers. For a script with no reset line that has
ended, on a `Running` block. Turns, and that a name bound twice has its newest value, are the model's choice (log 12). -/
def Obligations.ScriptAcceptsItsEncoding : Prop :=
  ∀ (m : Nat) (ss t : ScriptState),
    ss.block.phase = .running → (∀ l ∈ ss.lines, l ≠ .reset) → scriptRun m ss = .next t → t.isEnded = true →
    ∃ (operands : List (Elem × Elem)) (received : List Elem),
      t.block.accepted = ss.block.accepted ++ operands ∧
      t.block.delivered = ss.block.delivered ++ received ∧
      scriptEncoding ss.env received ss.lines = some (operands.map fun ab => reqOfPorts ab.1 ab.2)

/-- A script's host may compute anything: every function of the values of finitely many names is some host computation
(30_encoding.md section 4, whose XOR is an example). How a computation is written is the model's choice (log 12). -/
def Obligations.HostComputesAnyFunction : Prop :=
  ∀ (names : List String) (f : List Elem → Elem), ∃ e : HostExpr, e.wf names = true ∧
    ∀ (env : Names) (values : List Elem),
      names.map (fun n => (Operand.name n).value env) = values.map some → e.value env = some (f values)

/-- A script that uses only names bound earlier is never stopped for want of one (30_encoding.md section 4). That a script with
an unbound name stops, and what a turn is, are the model's choice (log 12). -/
def Obligations.WellFormedScriptFindsItsNames : Prop :=
  (∀ (m : Nat) (ss : ScriptState), wfScript (ss.env.map (·.1)) ss.lines = true → scriptRun m ss ≠ .unboundName) ∧
  (∀ (m : Nat) (ss t : ScriptState), wfScript (ss.env.map (·.1)) ss.lines = true → scriptRun m ss = .next t →
    wfScript (t.env.map (·.1)) t.lines = true)
end

