-- ==== Sys2Proof/Laws/Bits.lean ====
section
/-! SUPPORT. What the bit-level helpers do, bit by bit. -/

namespace Sys2Proof.Machine

theorem getLsbD_ofBits (w : Nat) (f : Nat → Bool) (i : Nat) : (ofBits w f).getLsbD i = (decide (i < w) && f i) := by
  induction w with
  | zero => simp [ofBits]
  | succ w ih =>
    rw [ofBits, BitVec.getLsbD_cons, ih]
    rcases Nat.lt_trichotomy i w with h | h | h
    · simp [Nat.ne_of_lt h, h, Nat.lt_succ_of_lt h]
    · simp [h]
    · simp [Nat.ne_of_gt h, Nat.not_lt.mpr (Nat.le_of_lt h), Nat.not_lt.mpr h]

theorem xorSum_congr {n : Nat} {f g : Nat → Bool} (h : ∀ i < n, f i = g i) : xorSum n f = xorSum n g := by
  induction n with
  | zero => rfl
  | succ n ih => simp only [xorSum, h n (Nat.lt_succ_self n), ih fun i hi => h i (Nat.lt_succ_of_lt hi)]

@[simp] theorem xorSum_false (n : Nat) : (xorSum n fun _ => false) = false := by
  induction n with
  | zero => rfl
  | succ n ih => simp [xorSum, ih]

theorem xorSum_xor (n : Nat) (f g : Nat → Bool) : (xorSum n fun i => f i ^^ g i) = (xorSum n f ^^ xorSum n g) := by
  induction n with
  | zero => rfl
  | succ n ih =>
    simp only [xorSum, ih]
    cases f n <;> cases g n <;> cases xorSum n f <;> cases xorSum n g <;> rfl

@[simp] theorem getLsbD_lo (v : Elem) (i : Nat) : (lo v).getLsbD i = (decide (i < 64) && v.getLsbD i) := by
  simp [lo]

@[simp] theorem getLsbD_hi (v : Elem) (i : Nat) : (hi v).getLsbD i = (decide (i < 64) && v.getLsbD (64 + i)) := by
  simp [hi]

theorem getLsbD_elem (l h : Word) (i : Nat) :
    (elem l h).getLsbD i = if i < 64 then l.getLsbD i else h.getLsbD (i - 64) := BitVec.getLsbD_append

@[simp] theorem lo_elem (l h : Word) : lo (elem l h) = l := by
  apply BitVec.eq_of_getLsbD_eq
  intro i hi
  simp only [getLsbD_lo, getLsbD_elem, hi, decide_true, Bool.true_and, if_true]

@[simp] theorem hi_elem (l h : Word) : hi (elem l h) = h := by
  apply BitVec.eq_of_getLsbD_eq
  intro i hi
  simp only [getLsbD_hi, getLsbD_elem, hi, decide_true, Bool.true_and, Nat.not_lt.mpr (Nat.le_add_right 64 i),
    if_false, Nat.add_sub_cancel_left]

@[simp] theorem elem_lo_hi (v : Elem) : elem (lo v) (hi v) = v := by
  apply BitVec.eq_of_getLsbD_eq
  intro i hi
  rw [getLsbD_elem]
  split
  · next h => rw [getLsbD_lo, decide_eq_true h, Bool.true_and]
  · next h =>
    have h2 : i - 64 < 64 := by omega
    rw [getLsbD_hi, decide_eq_true h2, Bool.true_and, show 64 + (i - 64) = i by omega]

/-- Bit k of CLMUL64, as the sum it is defined by (40_clmul.md R80). -/
theorem getLsbD_clmul64 (u v : Word) (k : Nat) :
    (clmul64 u v).getLsbD k =
      (decide (k < 128) && xorSum 64 fun i => Nat.ble i k && (u.getLsbD i && v.getLsbD (k - i))) := by
  rw [clmul64, getLsbD_ofBits]

/-- A request word, bit by bit (30_encoding.md R61). -/
theorem getLsbD_reqOfPorts (a b : Elem) (k : Nat) :
    (reqOfPorts a b).getLsbD k = if k < 128 then a.getLsbD k else b.getLsbD (k - 128) := BitVec.getLsbD_append

/-- A request word made of the two ports decodes to their halves (30_encoding.md R61, R64). -/
theorem decodeReq_reqOfPorts (a b : Elem) : decodeReq (reqOfPorts a b) = .gfmul (lo a) (hi a) (lo b) (hi b) := by
  have word : ∀ (start : Nat) (w : Word),
      (∀ i < 64, w.getLsbD i = (reqOfPorts a b).getLsbD (start + i)) → (reqOfPorts a b).extractLsb' start 64 = w := by
    intro start w h
    apply BitVec.eq_of_getLsbD_eq
    intro i hi
    rw [BitVec.getLsbD_extractLsb', decide_eq_true hi, Bool.true_and, h i hi]
  rw [decodeReq, word 0 (lo a), word 64 (hi a), word 128 (lo b), word 192 (hi b)] <;> intro i hi <;>
    simp only [getLsbD_reqOfPorts, getLsbD_lo, getLsbD_hi, hi, decide_true, Bool.true_and]
  · rw [if_neg (by omega), show 192 + i - 128 = 64 + i by omega]
  · rw [if_neg (by omega), show 128 + i - 128 = i by omega]
  · rw [if_pos (by omega)]
  · rw [if_pos (by omega), Nat.zero_add]

end Sys2Proof.Machine
end

