-- ==== Sys2Proof/Laws/State.lean ====
section
/-! SUPPORT. One lemma per field per update of the state. -/

namespace Sys2Proof.Machine

@[simp] theorem State.consume_params (s : State) (c : HostCycle) : (s.consume c).params = s.params := rfl
@[simp] theorem State.consume_phase (s : State) (c : HostCycle) : (s.consume c).phase = s.phase := rfl
@[simp] theorem State.consume_q (s : State) (c : HostCycle) : (s.consume c).q = s.q := rfl
@[simp] theorem State.consume_accepted (s : State) (c : HostCycle) : (s.consume c).accepted = s.accepted := rfl
@[simp] theorem State.consume_delivered (s : State) (c : HostCycle) : (s.consume c).delivered = s.delivered := rfl
@[simp] theorem State.consume_hist (s : State) (c : HostCycle) : (s.consume c).hist = c.seen :: s.hist := rfl
@[simp] theorem State.consume_host (s : State) (c : HostCycle) : (s.consume c).host = s.host.tail := rfl
@[simp] theorem State.consume_draws (s : State) (c : HostCycle) : (s.consume c).draws = s.draws.tail := rfl

@[simp] theorem State.doReset_params (s : State) : (s.doReset).params = s.params := rfl
@[simp] theorem State.doReset_phase (s : State) : (s.doReset).phase = .running := rfl
@[simp] theorem State.doReset_q (s : State) : (s.doReset).q = [] := rfl
@[simp] theorem State.doReset_accepted (s : State) : (s.doReset).accepted = [] := rfl
@[simp] theorem State.doReset_delivered (s : State) : (s.doReset).delivered = [] := rfl
@[simp] theorem State.doReset_hist (s : State) : (s.doReset).hist = s.hist := rfl
@[simp] theorem State.doReset_host (s : State) : (s.doReset).host = s.host := rfl
@[simp] theorem State.doReset_draws (s : State) : (s.doReset).draws = s.draws := rfl

@[simp] theorem State.losePower_params (s : State) : (s.losePower).params = s.params := rfl
@[simp] theorem State.losePower_phase (s : State) : (s.losePower).phase = .unreset := rfl
@[simp] theorem State.losePower_q (s : State) : (s.losePower).q = [] := rfl
@[simp] theorem State.losePower_accepted (s : State) : (s.losePower).accepted = s.accepted := rfl
@[simp] theorem State.losePower_delivered (s : State) : (s.losePower).delivered = s.delivered := rfl
@[simp] theorem State.losePower_hist (s : State) : (s.losePower).hist = .powerLoss :: s.hist := rfl
@[simp] theorem State.losePower_host (s : State) : (s.losePower).host = s.host.tail := rfl
@[simp] theorem State.losePower_draws (s : State) : (s.losePower).draws = s.draws := rfl

@[simp] theorem State.deliver_params (s : State) (v : Elem) : (s.deliver v).params = s.params := rfl
@[simp] theorem State.deliver_phase (s : State) (v : Elem) : (s.deliver v).phase = s.phase := rfl
@[simp] theorem State.deliver_q (s : State) (v : Elem) : (s.deliver v).q = s.q.tail := rfl
@[simp] theorem State.deliver_accepted (s : State) (v : Elem) : (s.deliver v).accepted = s.accepted := rfl
@[simp] theorem State.deliver_delivered (s : State) (v : Elem) : (s.deliver v).delivered = s.delivered ++ [v] := rfl
@[simp] theorem State.deliver_hist (s : State) (v : Elem) : (s.deliver v).hist = s.hist := rfl
@[simp] theorem State.deliver_host (s : State) (v : Elem) : (s.deliver v).host = s.host := rfl
@[simp] theorem State.deliver_draws (s : State) (v : Elem) : (s.deliver v).draws = s.draws := rfl

@[simp] theorem State.accept_params (s : State) (a b : Elem) : (s.accept a b).params = s.params := rfl
@[simp] theorem State.accept_phase (s : State) (a b : Elem) : (s.accept a b).phase = s.phase := rfl
@[simp] theorem State.accept_q (s : State) (a b : Elem) : (s.accept a b).q = s.q ++ [{ r := gfmulBy s.params.impl a b, ready := false, t := s.edgeNo, base := none }] := rfl
@[simp] theorem State.accept_accepted (s : State) (a b : Elem) : (s.accept a b).accepted = s.accepted ++ [(a, b)] := rfl
@[simp] theorem State.accept_delivered (s : State) (a b : Elem) : (s.accept a b).delivered = s.delivered := rfl
@[simp] theorem State.accept_hist (s : State) (a b : Elem) : (s.accept a b).hist = s.hist := rfl
@[simp] theorem State.accept_host (s : State) (a b : Elem) : (s.accept a b).host = s.host := rfl
@[simp] theorem State.accept_draws (s : State) (a b : Elem) : (s.accept a b).draws = s.draws := rfl

@[simp] theorem State.complete_params (s : State) (names : List Nat) : (s.complete names).params = s.params := rfl
@[simp] theorem State.complete_phase (s : State) (names : List Nat) : (s.complete names).phase = s.phase := rfl
@[simp] theorem State.complete_q (s : State) (names : List Nat) : (s.complete names).q = completeFrom s.params s.edgeNo names 0 true s.q := rfl
@[simp] theorem State.complete_accepted (s : State) (names : List Nat) : (s.complete names).accepted = s.accepted := rfl
@[simp] theorem State.complete_delivered (s : State) (names : List Nat) : (s.complete names).delivered = s.delivered := rfl
@[simp] theorem State.complete_hist (s : State) (names : List Nat) : (s.complete names).hist = s.hist := rfl
@[simp] theorem State.complete_host (s : State) (names : List Nat) : (s.complete names).host = s.host := rfl
@[simp] theorem State.complete_draws (s : State) (names : List Nat) : (s.complete names).draws = s.draws := rfl

@[simp] theorem State.deliverIf_params (s : State) (o : Outputs) (c : HostCycle) :
    (s.deliverIf o c).params = s.params := by
  unfold State.deliverIf
  cases o.rspValid && c.rspReady <;> simp

@[simp] theorem State.deliverIf_phase (s : State) (o : Outputs) (c : HostCycle) :
    (s.deliverIf o c).phase = s.phase := by
  unfold State.deliverIf
  cases o.rspValid && c.rspReady <;> simp

@[simp] theorem State.deliverIf_q (s : State) (o : Outputs) (c : HostCycle) :
    (s.deliverIf o c).q = if o.rspValid && c.rspReady then s.q.tail else s.q := by
  unfold State.deliverIf
  cases o.rspValid && c.rspReady <;> simp

@[simp] theorem State.deliverIf_accepted (s : State) (o : Outputs) (c : HostCycle) :
    (s.deliverIf o c).accepted = s.accepted := by
  unfold State.deliverIf
  cases o.rspValid && c.rspReady <;> simp

@[simp] theorem State.deliverIf_delivered (s : State) (o : Outputs) (c : HostCycle) :
    (s.deliverIf o c).delivered = s.delivered ++ (if o.rspValid && c.rspReady then [o.rspR] else []) := by
  unfold State.deliverIf
  cases o.rspValid && c.rspReady <;> simp

@[simp] theorem State.deliverIf_hist (s : State) (o : Outputs) (c : HostCycle) :
    (s.deliverIf o c).hist = s.hist := by
  unfold State.deliverIf
  cases o.rspValid && c.rspReady <;> simp

@[simp] theorem State.deliverIf_host (s : State) (o : Outputs) (c : HostCycle) :
    (s.deliverIf o c).host = s.host := by
  unfold State.deliverIf
  cases o.rspValid && c.rspReady <;> simp

@[simp] theorem State.deliverIf_draws (s : State) (o : Outputs) (c : HostCycle) :
    (s.deliverIf o c).draws = s.draws := by
  unfold State.deliverIf
  cases o.rspValid && c.rspReady <;> simp

@[simp] theorem State.acceptIf_params (s : State) (o : Outputs) (c : HostCycle) :
    (s.acceptIf o c).params = s.params := by
  unfold State.acceptIf
  cases c.reqValid && o.reqReady <;> simp

@[simp] theorem State.acceptIf_phase (s : State) (o : Outputs) (c : HostCycle) :
    (s.acceptIf o c).phase = s.phase := by
  unfold State.acceptIf
  cases c.reqValid && o.reqReady <;> simp

@[simp] theorem State.acceptIf_q (s : State) (o : Outputs) (c : HostCycle) :
    (s.acceptIf o c).q = s.q ++
      (if c.reqValid && o.reqReady then [⟨gfmulBy s.params.impl c.reqA c.reqB, false, s.edgeNo, none⟩] else []) := by
  unfold State.acceptIf
  cases c.reqValid && o.reqReady <;> simp

@[simp] theorem State.acceptIf_accepted (s : State) (o : Outputs) (c : HostCycle) :
    (s.acceptIf o c).accepted = s.accepted ++ (if c.reqValid && o.reqReady then [(c.reqA, c.reqB)] else []) := by
  unfold State.acceptIf
  cases c.reqValid && o.reqReady <;> simp

@[simp] theorem State.acceptIf_delivered (s : State) (o : Outputs) (c : HostCycle) :
    (s.acceptIf o c).delivered = s.delivered := by
  unfold State.acceptIf
  cases c.reqValid && o.reqReady <;> simp

@[simp] theorem State.acceptIf_hist (s : State) (o : Outputs) (c : HostCycle) :
    (s.acceptIf o c).hist = s.hist := by
  unfold State.acceptIf
  cases c.reqValid && o.reqReady <;> simp

@[simp] theorem State.acceptIf_host (s : State) (o : Outputs) (c : HostCycle) :
    (s.acceptIf o c).host = s.host := by
  unfold State.acceptIf
  cases c.reqValid && o.reqReady <;> simp

@[simp] theorem State.acceptIf_draws (s : State) (o : Outputs) (c : HostCycle) :
    (s.acceptIf o c).draws = s.draws := by
  unfold State.acceptIf
  cases c.reqValid && o.reqReady <;> simp

@[simp] theorem State.edgeNo_deliverIf (s : State) (o : Outputs) (c : HostCycle) :
    (s.deliverIf o c).edgeNo = s.edgeNo := by
  simp [State.edgeNo]

@[simp] theorem State.edgeNo_acceptIf (s : State) (o : Outputs) (c : HostCycle) :
    (s.acceptIf o c).edgeNo = s.edgeNo := by
  simp [State.edgeNo]

@[simp] theorem State.edgeNo_consume (s : State) (c : HostCycle) : (s.consume c).edgeNo = s.edgeNo + 1 := rfl

end Sys2Proof.Machine
end

