-- ==== Sys2Proof/Laws/Ops.lean ====
section
/-! SUPPORT. What each shared operation can do: completing, one edge, one step. -/

namespace Sys2Proof.Machine

/-! ### Events and draws -/

theorem State.nextEvent_cons {s : State} {ev : HostEvent} {evs : List HostEvent} (h : s.host = ev :: evs) :
    s.nextEvent = ev := by
  simp [State.nextEvent, h]

theorem State.nextDraw_cons {s : State} {d : Draw} {ds : List Draw} (h : s.draws = d :: ds) (c : HostCycle) :
    s.nextDraw c = d := by
  simp [State.nextDraw, h]

/-- The draws depend on the parameters, the control history and the control inputs of the edge, and on nothing else. -/
theorem State.nextDraw_congr {s s' : State} {c c' : HostCycle} (hp : s.params = s'.params) (hh : s.hist = s'.hist)
    (hd : s.draws = s'.draws) (hc : c.seen = c'.seen) : s.nextDraw c = s'.nextDraw c' := by
  simp only [State.nextDraw, hp, hh, hd, hc]

/-- `avail` does not depend on the inputs of the edge. -/
theorem State.nextDraw_avail (s : State) (c c' : HostCycle) : (s.nextDraw c).avail = (s.nextDraw c').avail := by
  unfold State.nextDraw
  split <;> rfl

/-- The outputs do not depend on the inputs of the edge but `rst`. -/
theorem State.outputs_nextDraw (s : State) (rst : Bool) (c c' : HostCycle) :
    s.outputs rst (s.nextDraw c) = s.outputs rst (s.nextDraw c') := by
  unfold State.nextDraw
  split <;> rfl

/-! ### Completing -/

@[simp] theorem completeEntry_r (p : Params) (e : Nat) (a n : Bool) (x : Entry) : (completeEntry p e a n x).r = x.r := rfl

@[simp] theorem completeEntry_t (p : Params) (e : Nat) (a n : Bool) (x : Entry) : (completeEntry p e a n x).t = x.t := rfl

theorem completeEntry_ready_mono {x : Entry} (p : Params) (e : Nat) (a n : Bool) (h : x.ready = true) :
    (completeEntry p e a n x).ready = true := by
  simp [completeEntry, h]

theorem completeEntry_base_some {x : Entry} {b : Nat} (p : Params) (e : Nat) (a n : Bool) (h : x.base = some b) :
    (completeEntry p e a n x).base = some b := by
  cases a <;> simp [completeEntry, baseAt, h]

@[simp] theorem completeFrom_nil (p : Params) (e : Nat) (ns : List Nat) (i : Nat) (a : Bool) :
    completeFrom p e ns i a [] = [] := rfl

theorem completeFrom_cons (p : Params) (e : Nat) (ns : List Nat) (i : Nat) (a : Bool) (x : Entry) (xs : List Entry) :
    completeFrom p e ns i a (x :: xs) =
      completeEntry p e a (ns.contains i) x ::
        completeFrom p e ns (i + 1) (completeEntry p e a (ns.contains i) x).ready xs := rfl

@[simp] theorem completeFrom_length (p : Params) (e : Nat) (ns : List Nat) (i : Nat) (a : Bool) (q : List Entry) :
    (completeFrom p e ns i a q).length = q.length := by
  induction q generalizing i a with
  | nil => rfl
  | cons x xs ih => simp [completeFrom_cons, ih]

/-- Completing changes no result. -/
@[simp] theorem completeFrom_map_r (p : Params) (e : Nat) (ns : List Nat) (i : Nat) (a : Bool) (q : List Entry) :
    (completeFrom p e ns i a q).map (·.r) = q.map (·.r) := by
  induction q generalizing i a with
  | nil => rfl
  | cons x xs ih => simp [completeFrom_cons, ih]

/-- Whether the entry ahead of position j counts as ready: the one before it in the queue made by completing, or the
value given for the first. -/
def aheadReady (a : Bool) (q : List Entry) (j : Nat) : Bool :=
  match j with
  | 0 => a
  | j + 1 => (q[j]?.map (·.ready)).getD false

/-- Completing, position by position. -/
theorem completeFrom_getElem? (p : Params) (e : Nat) (ns : List Nat) (i : Nat) (a : Bool) (q : List Entry) (j : Nat) :
    (completeFrom p e ns i a q)[j]? =
      q[j]?.map (completeEntry p e (aheadReady a (completeFrom p e ns i a q) j) (ns.contains (i + j))) := by
  induction q generalizing i a j with
  | nil => simp
  | cons x xs ih =>
    cases j with
    | zero => simp [completeFrom_cons, aheadReady]
    | succ j =>
      rw [completeFrom_cons, List.getElem?_cons_succ, ih, List.getElem?_cons_succ]
      have h : aheadReady (completeEntry p e a (ns.contains i) x).ready
          (completeFrom p e ns (i + 1) (completeEntry p e a (ns.contains i) x).ready xs) j =
          aheadReady a (completeEntry p e a (ns.contains i) x ::
            completeFrom p e ns (i + 1) (completeEntry p e a (ns.contains i) x).ready xs) (j + 1) := by
        cases j <;> simp [aheadReady]
      rw [h, show i + 1 + j = i + (j + 1) by omega]

/-- The last edge of an entry comes no earlier than its first (00_scope.md R8: `LAT_MAX` >= `LAT_MIN`). -/
theorem completeEntry_onTime {p : Params} {e : Nat} {a' a n : Bool} {x : Entry} (h : x.onTime p e a')
    (haa : a' = true → a = true) : (completeEntry p e a n x).onTime p (e + 1) a := by
  obtain ⟨ht, hr, hb, hd⟩ := h
  have hlat : p.latMin ≤ p.latMax := Nat.le_add_right _ _
  have hbase : ∀ b, baseAt e a x.base = some b → x.t ≤ b ∧ b ≤ e ∧ (x.base = some b ∨ b = e) := by
    intro b hb'
    cases hx : x.base with
    | none =>
      cases a <;> simp [baseAt, hx] at hb'
      omega
    | some b0 =>
      have := hd b0 hx
      cases a <;> simp [baseAt, hx] at hb' <;> subst hb' <;> exact ⟨this.1, by omega, .inl rfl⟩
  refine ⟨Nat.lt_succ_of_lt ht, ?_, ?_, ?_⟩
  · intro hy
    simp only [completeEntry, Bool.or_eq_true, Bool.and_eq_true, mayReady, decide_eq_true_eq] at hy
    simp only [completeEntry_t]
    rcases hy with hy | ⟨hy, -⟩
    · have := hr hy; omega
    · omega
  · cases a with
    | true => simp [completeEntry, baseAt]
    | false =>
      have : a' = false := by cases a' <;> simp_all
      simp [completeEntry, baseAt, hb, this]
  · intro b hb'
    obtain ⟨h1, h2, h3⟩ := hbase b hb'
    refine ⟨h1, Nat.lt_succ_of_le h2, fun hy => ?_⟩
    simp only [completeEntry, Bool.or_eq_false_iff, Bool.and_eq_false_iff] at hy
    obtain ⟨-, hy⟩ := hy
    by_contra hlt
    have hm : mustReady p e (baseAt e a x.base) = true := by
      have : baseAt e a x.base = some b := hb'
      simp only [this, mustReady, decide_eq_true_eq]
      omega
    have hmay : mayReady p e x = true := by
      have : baseAt e a x.base = some b := hb'
      simp only [this, mustReady, decide_eq_true_eq] at hm
      simp only [mayReady, decide_eq_true_eq]
      omega
    simp [hm, hmay] at hy

/-- Completing keeps the bounds of 42_gfmul.md R125 along the queue, and moves on to the next edge. -/
theorem completeFrom_onTime {p : Params} {e : Nat} (ns : List Nat) (i : Nat) {a' a : Bool} {q : List Entry}
    (h : queueOnTime p e a' q) (haa : a' = true → a = true) :
    queueOnTime p (e + 1) a (completeFrom p e ns i a q) := by
  induction q generalizing i a' a with
  | nil => trivial
  | cons x xs ih =>
    exact ⟨completeEntry_onTime h.1 haa, ih (i + 1) h.2 fun hx => completeEntry_ready_mono p e a _ hx⟩

/-! ### One edge -/

/-- The coming edge of a `Running` block with `rst` = 1 is the reset. -/
theorem State.runningEdge_rst {s : State} {c : HostCycle} (d : Draw) (h : c.rst = true) :
    s.runningEdge c d = s.doReset := by
  simp [State.runningEdge, h]

@[simp] theorem State.runningEdge_params (s : State) (c : HostCycle) (d : Draw) :
    (s.runningEdge c d).params = s.params := by
  unfold State.runningEdge
  cases c.rst <;> simp

@[simp] theorem State.runningEdge_hist (s : State) (c : HostCycle) (d : Draw) :
    (s.runningEdge c d).hist = s.hist := by
  unfold State.runningEdge
  cases c.rst <;> simp

@[simp] theorem State.runningEdge_host (s : State) (c : HostCycle) (d : Draw) :
    (s.runningEdge c d).host = s.host := by
  unfold State.runningEdge
  cases c.rst <;> simp

@[simp] theorem State.runningEdge_draws (s : State) (c : HostCycle) (d : Draw) :
    (s.runningEdge c d).draws = s.draws := by
  unfold State.runningEdge
  cases c.rst <;> simp

/-- A `Running` block stays `Running` at every edge. -/
theorem State.runningEdge_phase {s : State} (hs : s.phase = .running) (c : HostCycle) (d : Draw) :
    (s.runningEdge c d).phase = .running := by
  unfold State.runningEdge
  cases c.rst <;> simp [hs]

/-- The outputs of a `Running` block with `rst` = 0 (10_state.md R30). -/
theorem State.outputs_running {s : State} (hs : s.phase = .running) (d : Draw) :
    s.outputs false d =
      { reqReady := decide (s.q.length < s.params.depth) && d.avail, rspValid := headReady s.q,
        rspR := headResult d.xRspR s.q } := by
  simp [State.outputs, hs]

/-- The queue after an edge with `rst` = 0. -/
theorem State.runningEdge_q {s : State} {c : HostCycle} (d : Draw) (hr : c.rst = false) :
    (s.runningEdge c d).q = completeFrom s.params s.edgeNo d.completes 0 true
      ((if (s.outputs c.rst d).rspValid && c.rspReady then s.q.tail else s.q) ++
        (if c.reqValid && (s.outputs c.rst d).reqReady
          then [⟨gfmulBy s.params.impl c.reqA c.reqB, false, s.edgeNo, none⟩] else [])) := by
  simp [State.runningEdge, hr]

/-- The accept beats after an edge with `rst` = 0. -/
theorem State.runningEdge_accepted {s : State} {c : HostCycle} (d : Draw) (hr : c.rst = false) :
    (s.runningEdge c d).accepted = s.accepted ++
      (if c.reqValid && (s.outputs c.rst d).reqReady then [(c.reqA, c.reqB)] else []) := by
  simp [State.runningEdge, hr]

/-- The deliver beats after an edge with `rst` = 0. -/
theorem State.runningEdge_delivered {s : State} {c : HostCycle} (d : Draw) (hr : c.rst = false) :
    (s.runningEdge c d).delivered = s.delivered ++
      (if (s.outputs c.rst d).rspValid && c.rspReady then [(s.outputs c.rst d).rspR] else []) := by
  simp [State.runningEdge, hr]

/-- One edge of a `Running` block. -/
theorem State.edgeWith_running {s : State} (hs : s.phase = .running) (c : HostCycle) (d : Draw) :
    s.edgeWith c d = .next ((s.runningEdge c d).consume c) := by
  simp [State.edgeWith, hs]

/-- One edge before the first reset. -/
theorem State.edgeWith_unreset {s : State} (hs : s.phase = .unreset) (c : HostCycle) (d : Draw) :
    s.edgeWith c d =
      if c.readsR || unresetBeat c d then .fault .usedBeforeReset
      else .next ((if c.rst then s.doReset else s).consume c) := by
  simp [State.edgeWith, hs]

/-- All that one edge can do, if it answers next t. -/
theorem State.edge_next_cases {s t : State} {c : HostCycle} (h : s.edge c = .next t) :
    (s.phase = .running ∧ t = (s.runningEdge c (s.nextDraw c)).consume c) ∨
    (s.phase = .unreset ∧ c.rst = true ∧ t = s.doReset.consume c) ∨
    (s.phase = .unreset ∧ c.rst = false ∧ t = s.consume c) := by
  unfold State.edge at h
  cases hp : s.phase with
  | running =>
    rw [State.edgeWith_running hp] at h
    exact .inl ⟨rfl, by cases h; rfl⟩
  | unreset =>
    rw [State.edgeWith_unreset hp] at h
    split at h
    · cases h
    · cases hr : c.rst <;> simp only [hr] at h <;> cases h
      · exact .inr (.inr ⟨rfl, rfl, rfl⟩)
      · exact .inr (.inl ⟨rfl, rfl, rfl⟩)

/-! ### One step -/

/-- A cycle that presents what it already presents. -/
theorem HostCycle.withRequest_self {c : HostCycle} (h : c.reqValid = true) : c.withRequest c.reqA c.reqB = c := by
  cases c
  simp_all [HostCycle.withRequest]

/-- A step whose coming event is an edge is that edge, with or without a request. -/
theorem step_edge {s : State} {c : HostCycle} (h : s.nextEvent = .edge c) : step s = s.edge c := by
  cases hv : c.reqValid with
  | true =>
    have hreq : s.nextEvent.request = some (reqOfPorts c.reqA c.reqB) := by simp [h, HostEvent.request, hv]
    rw [step, hreq]
    simp only [decodeReq_reqOfPorts, exec, execGfmul, State.present, h, elem_lo_hi, HostCycle.withRequest_self hv]
  | false =>
    have hreq : s.nextEvent.request = none := by simp [h, HostEvent.request, hv]
    have hc : { c with reqValid := false } = c := by cases c; simp_all
    rw [step, hreq]
    simp only [State.noRequest, h, hc]

/-- A step at which power is lost. -/
theorem step_powerLoss {s : State} (h : s.nextEvent = .powerLoss) : step s = .next s.losePower := by
  simp [step, h, HostEvent.request, State.noRequest]

/-- What exec of GFMUL does: the coming edge, with the request on it. -/
theorem exec_gfmul_edge {s : State} {c : HostCycle} (h : s.nextEvent = .edge c) (a0 a1 b0 b1 : Word) :
    exec (.gfmul a0 a1 b0 b1) s = s.edge (c.withRequest (elem a0 a1) (elem b0 b1)) := by
  simp [exec, execGfmul, State.present, h]

/-- What exec of GFMUL does when power is lost first. -/
theorem exec_gfmul_powerLoss {s : State} (h : s.nextEvent = .powerLoss) (a0 a1 b0 b1 : Word) :
    exec (.gfmul a0 a1 b0 b1) s = .next s.losePower := by
  simp [exec, execGfmul, State.present, h]

/-- All that one step can do, if it answers next t. -/
theorem step_next_cases {s t : State} (h : step s = .next t) :
    (s.nextEvent = .powerLoss ∧ t = s.losePower) ∨
    ∃ c : HostCycle, s.nextEvent = .edge c ∧
      ((s.phase = .running ∧ t = (s.runningEdge c (s.nextDraw c)).consume c) ∨
        (s.phase = .unreset ∧ c.rst = true ∧ t = s.doReset.consume c) ∨
        (s.phase = .unreset ∧ c.rst = false ∧ t = s.consume c)) := by
  cases he : s.nextEvent with
  | powerLoss =>
    rw [step_powerLoss he] at h
    exact .inl ⟨rfl, by cases h; rfl⟩
  | edge c =>
    rw [step_edge he] at h
    exact .inr ⟨c, rfl, State.edge_next_cases h⟩

end Sys2Proof.Machine
end

