-- ==== Sys2Proof/Laws/PerInstr.lean ====
section
/-! SUPPORT. Statements about the instruction as syntax, one lemma per constructor of Instr. -/

/-- Every field of the instruction stands at its bits of the request word (30_encoding.md R61), and the instruction is
well formed. -/
def Sys2Proof.Laws.ReqFields.Statement : Sys2Proof.Instr → Prop
  | .gfmul a0 a1 b0 b1 =>
    (Sys2Proof.Instr.gfmul a0 a1 b0 b1).wf = true ∧
      ∀ k < 64,
        (Sys2Proof.encode (.gfmul a0 a1 b0 b1)).getLsbD k = a0.getLsbD k ∧
        (Sys2Proof.encode (.gfmul a0 a1 b0 b1)).getLsbD (64 + k) = a1.getLsbD k ∧
        (Sys2Proof.encode (.gfmul a0 a1 b0 b1)).getLsbD (128 + k) = b0.getLsbD k ∧
        (Sys2Proof.encode (.gfmul a0 a1 b0 b1)).getLsbD (192 + k) = b1.getLsbD k

/-- The fields of GFMUL stand at their bits of REQ. -/
theorem Sys2Proof.Laws.ReqFields.gfmul (a0 a1 b0 b1 : Sys2Proof.Word) :
    Sys2Proof.Laws.ReqFields.Statement (.gfmul a0 a1 b0 b1) := by
  refine ⟨rfl, fun k hk => ?_⟩
  have outer (z : BitVec 192) (i : Nat) :
      (z ++ a0 : BitVec 256).getLsbD i = if i < 64 then a0.getLsbD i else z.getLsbD (i - 64) := BitVec.getLsbD_append
  have middle (z : BitVec 128) (i : Nat) :
      (z ++ a1 : BitVec 192).getLsbD i = if i < 64 then a1.getLsbD i else z.getLsbD (i - 64) := BitVec.getLsbD_append
  have inner (i : Nat) :
      (b1 ++ b0 : BitVec 128).getLsbD i = if i < 64 then b0.getLsbD i else b1.getLsbD (i - 64) := BitVec.getLsbD_append
  refine ⟨?_, ?_, ?_, ?_⟩ <;> rw [Sys2Proof.encode, outer]
  · rw [if_pos hk]
  · rw [if_neg (by omega), middle, if_pos (by omega), Nat.add_sub_cancel_left]
  · rw [if_neg (by omega), middle, if_neg (by omega), inner, if_pos (by omega), show 128 + k - 64 - 64 = k by omega]
  · rw [if_neg (by omega), middle, if_neg (by omega), inner, if_neg (by omega),
      show 192 + k - 64 - 64 - 64 = k by omega]
end

