-- ==== Sys2Proof/Tests/Slice0.lean ====
section
/-! SUPPORT. The model's own tests: each expected result is the spec's, from the section named beside it. Then, for every
statement with hypotheses, a witness: concrete states and operands that meet them, at the boundary values of each clause. -/

namespace Sys2Proof.Tests

open Sys2Proof Sys2Proof.Machine

/-! ### Encoding -/

/-- 95_test_vectors.md section 3, P1, first line: REQ = b1, b0, a1, a0. -/
theorem test_decode_gfmul :
    decodeTableWord 256 0x74d42c539a5f3211dc3451f72bd297661e7f4d8e9d4314cf49c56d06735b11c0 =
      some (.gfmul 0x49c56d06735b11c0 0x1e7f4d8e9d4314cf 0xdc3451f72bd29766 0x74d42c539a5f3211) := by
  decide +kernel

/-- 95_test_vectors.md section 3, P4, first line. -/
theorem test_encode_gfmul :
    encode (.gfmul 0xfedcba9876543210 0x0123456789abcdef 0x1 0xff) =
      0x00000000000000ff00000000000000010123456789abcdeffedcba9876543210#256 := by
  decide +kernel

/-- 30_encoding.md R66: a beat of 31 bytes is no beat. -/
theorem test_wf_short_beat :
    wfBeat (List.replicate 31 0) = false ∧ decode (List.replicate 31 0) = .error .shortBeat := ⟨rfl, rfl⟩

/-- 30_encoding.md R66: a beat of 33 bytes is no beat. -/
theorem test_wf_long_beat :
    wfBeat (List.replicate 33 0) = false ∧ decode (List.replicate 33 0) = .error .longBeat := ⟨rfl, rfl⟩

/-! ### The arithmetic -/

/-- 95_test_vectors.md section 2.1: top bits, x^126. -/
theorem test_clmul64_top_bits : clmul64 0x8000000000000000 0x8000000000000000 = 0x40000000000000000000000000000000 := by
  decide +kernel

/-- 95_test_vectors.md section 2.1, the general row, under the iterative backend. -/
theorem test_clmul64_iterative :
    clmul64Iter 0x0123456789abcdef 0xfedcba9876543210 = 0x00e038d8688850b040a0789828c810f0 := by
  decide +kernel

/-- 95_test_vectors.md section 2.2, the walk-through: all four words. -/
theorem test_clmul128_walk_through :
    clmul128By .iterative 0x0f1e2d3c4b5a69788796a5b4c3d2e1f0 0x112233445566778899aabbccddeeff00 =
      ⟨0xa8a8a85050af5000, 0x40bf4047b8b8b857, 0xe8e8e81010ef1040, 0x00ff0007f8f8f817⟩ := by
  decide +kernel

/-- 95_test_vectors.md section 2.3: every bit of the input. -/
theorem test_reduce_all_ones :
    reduce ⟨0xffffffffffffffff, 0xffffffffffffffff, 0xffffffffffffffff, 0xffffffffffffffff⟩ =
      0xffffffffffffffffffffffffffffc071 := by
  decide +kernel

/-- 95_test_vectors.md section 2.3: x^255, the bit that no product has. -/
theorem test_reduce_top_bit : reduce ⟨0, 0, 0, 0x8000000000000000⟩ = 0x80000000000000000000000000002049 := by
  decide +kernel

/-- 95_test_vectors.md section 2.4: no reduction. -/
theorem test_gfmul_x_x : gfmul 0x2 0x2 = 0x4 := by decide +kernel

/-- 95_test_vectors.md section 1.4: X1 = GFMUL(C, H), under the iterative backend. -/
theorem test_gfmul_known_answer :
    gfmulBy .iterative 0x1e7f4d8e9d4314cf49c56d06735b11c0 0x74d42c539a5f3211dc3451f72bd29766 =
      0xed7bcaca160da13411460e8962e3747a := by
  decide +kernel

/-- 95_test_vectors.md section 1.5: e1 00 ... 00 is x^128 mod P. -/
theorem test_gcm_form : ofGcm #v[0xe1, 0, 0, 0, 0, 0, 0, 0, 0, 0, 0, 0, 0, 0, 0, 0] = 0x87 := by decide +kernel

/-! ### States for one step, under the reference configuration REF (D7): DEPTH = 2, LAT_MIN = LAT_MAX = 1 -/

/-- A draw that names these entries. -/
def draw (avail : Bool) (completes : List Nat) : Draw :=
  { avail := avail, completes := completes, xReqReady := true, xRspValid := true, xRspR := 0 }

/-- An edge at which the host drives nothing. -/
def quiet : HostEvent := .edge quietCycle

/-- A cycle that presents x * x, with this `rsp_ready`. -/
def ask (rspReady : Bool) : HostCycle := { quietCycle with reqValid := true, reqA := 2, reqB := 2, rspReady := rspReady }

/-- A `Running` block with nothing in flight. -/
def empty (host : List HostEvent) (draws : List Draw) : State :=
  { params := .ref, phase := .running, q := [], accepted := [], delivered := [], hist := [], host := host, draws := draws }

/-- A `Running` block, three edges on, with x * x ready to be taken. -/
def half (host : List HostEvent) (draws : List Draw) : State :=
  { empty host draws with
    q := [⟨4, true, 0, some 0⟩], accepted := [(2, 2)]
    hist := [.edge false false false, .edge false false false, .edge false true false] }

/-- A full `Running` block, three edges on: x * x ready to be taken, and again x * x, not ready. -/
def full (host : List HostEvent) (draws : List Draw) : State :=
  { empty host draws with
    q := [⟨4, true, 0, some 0⟩, ⟨4, false, 1, some 2⟩], accepted := [(2, 2), (2, 2)]
    hist := [.edge false false false, .edge false true false, .edge false true false] }

/-- A block before its first reset. -/
def fresh (host : List HostEvent) (draws : List Draw) : State := { empty host draws with phase := .unreset }

/-- 95_test_vectors.md section 2.5, first row: accepted if `avail`. -/
theorem test_gfmul_accept :
    ∃ t, exec (.gfmul 2 0 2 0) (empty [quiet] [draw true [0]]) = .next t ∧ t.accepted = [(2, 2)] ∧
      t.q.map (·.ready) = [false] := ⟨_, rfl, rfl, rfl⟩

/-- 95_test_vectors.md section 2.5, fifth row: full, so the head is delivered and nothing is accepted. -/
theorem test_gfmul_full :
    ∃ t, step (full [.edge (ask true)] [draw true [0]]) = .next t ∧ t.accepted.length = 2 ∧ t.delivered = [4] ∧
      t.q.map (·.r) = [4] := ⟨_, rfl, rfl, rfl, rfl⟩

/-- 95_test_vectors.md section 2.5, seventh row: a beat taken before the first reset is the fault. -/
theorem test_used_before_reset : step (fresh [.edge (ask false)] [draw true []]) = .fault .usedBeforeReset := rfl

/-- The first step after reset runs the table word presented to it (log 10), whatever the configuration. -/
theorem test_fetch :
    ∃ t, step (State.reset.withFetchWord 256 0x2) = .next t ∧ t.accepted = [(0x2, 0x0)] := ⟨_, rfl, rfl⟩

/-! ### Scripts -/

/-- P3 of 95_test_vectors.md section 3. -/
def p3 : List Line :=
  [.reset, .gfmul (.lit 0x2) (.lit 0x2), .idle 1, .reset, .comment "op1 is lost",
    .gfmul (.lit 0x10000000000000000) (.lit 0x10000000000000000), .recv "r"]

/-- The encoding of P3 (95_test_vectors.md section 3). -/
theorem test_script_encoding :
    wfScript [] p3 = true ∧
      scriptEncoding [] [0x87] p3 =
        some [0x0000000000000000000000000000000200000000000000000000000000000002,
          0x0000000000000001000000000000000000000000000000010000000000000000] := by
  decide +kernel

/-- The encoding of P4 (95_test_vectors.md section 3), whose later words depend on what its `recv` lines take. -/
theorem test_script_encoding_received :
    scriptEncoding [("a", 0x0123456789abcdeffedcba9876543210), ("b", 0xff0000000000000001), ("c", 0x80000000000000000000000000000002)]
        [0xe0fea4c268762c6db53dcc113db56fc0, 0xaf28c63941c6213620d02e56ce343488, 0x8000000000003f408000000000000002,
          0xaf28c63941c6213620d02e56ce343488]
        [.gfmul (.name "a") (.name "b"), .recv "ab", .gfmul (.name "ab") (.name "c"), .recv "abc",
          .gfmul (.name "b") (.name "c"), .recv "bc", .gfmul (.name "a") (.name "bc"), .recv "a_bc"] =
      some [0x00000000000000ff00000000000000010123456789abcdeffedcba9876543210,
        0x80000000000000000000000000000002e0fea4c268762c6db53dcc113db56fc0,
        0x8000000000000000000000000000000200000000000000ff0000000000000001,
        0x8000000000003f4080000000000000020123456789abcdeffedcba9876543210] := by
  decide +kernel

/-- The GCM bit map as a host's rewiring (20_memory.md R41, R42): bit i is bit 127 - i of the bytes' big-endian integer, and
e1 00 ... 00 becomes x^128 mod P. -/
theorem test_host_gcm_map :
    (HostExpr.ofFn fun i => .bit (.lit 0xe1000000000000000000000000000000) (127 - i)).value [] = some 0x87 := by
  decide +kernel

/-- A bitwise AND with a bound name (00_scope.md R12). -/
theorem test_host_and :
    (HostExpr.ofFn fun i => .and (.bit (.name "n") i) (.bit (.lit 0x80000000000000000000000000000005) i)).value
      [("n", 0xc0000000000000000000000000000006)] = some 0x80000000000000000000000000000004 := by
  decide +kernel

/-- A name not bound earlier is refused (30_encoding.md R67). -/
theorem test_script_unbound : wfScript [] [.gfmul (.name "Y") (.lit 1), .recv "Y"] = false := rfl

/-- A script state on this block. -/
def onBlock (lines : List Line) (block : State) : ScriptState := { lines := lines, idled := 0, env := [], block := block }

/-- P3 from power-on under REF with `avail` = 1: the end state of 95_test_vectors.md section 3, after 7 edges (edges 0 to
6), an end of `idle` and a comment. -/
theorem test_script_p3 :
    ∃ t, scriptRun 9 (onBlock p3 (fresh [] (List.replicate 7 (draw true [])))) = .next t ∧ t.isEnded = true ∧
      t.block.q = [] ∧ t.block.hist.length = 7 ∧ t.env.map (·.1) = ["r"] := ⟨_, rfl, rfl, rfl, rfl, rfl⟩

/-! ### Witnesses: the hypotheses of each statement are met -/

/-- The hypotheses of `RunningEdge` on a state whose next event is fixed. -/
theorem runningEdge_of {s : State} {c : HostCycle} {evs : List HostEvent} (hs : s.phase = .running)
    (hh : s.host = .edge c :: evs) (hr : c.rst = false) : RunningEdge s c := ⟨hs, State.nextEvent_cons hh, hr⟩

/-- A response cycle: `rsp_ready` = 1. -/
def take : HostCycle := { quietCycle with rspReady := true }

/-- A reset cycle at which the host also presents a request and would take a result. -/
def rstAsk : HostCycle := { ask true with rst := true }

theorem empty_inv (host : List HostEvent) (draws : List Draw) : (empty host draws).Inv :=
  fun _ => ⟨Nat.zero_le _, rfl, trivial⟩

theorem half_inv (host : List HostEvent) (draws : List Draw) : (half host draws).Inv := by
  refine fun _ => ⟨show 1 ≤ 2 by decide, ?_, ?_⟩
  · simpa [State.inOrder, half, empty] using test_gfmul_x_x
  · simp [queueOnTime, Entry.onTime, half, empty, State.edgeNo, Params.ref, Params.latMax]

theorem full_inv (host : List HostEvent) (draws : List Draw) : (full host draws).Inv := by
  refine fun _ => ⟨show 2 ≤ 2 by decide, ?_, ?_⟩
  · simpa [State.inOrder, full, empty] using test_gfmul_x_x
  · simp [queueOnTime, Entry.onTime, full, empty, State.edgeNo, Params.ref, Params.latMax]

/-- The halves of the vector with bits 0 and 127 set, at the ends of each word's range. -/
theorem witness_WordOrderOfElementAndProduct :
    lo 0x80000000000000000000000000000001 = 0x1 ∧ hi 0x80000000000000000000000000000001 = 0x8000000000000000 ∧
      wideVec ⟨1, 2, 4, 0x8000000000000000⟩ =
        0x8000000000000000000000000000000400000000000000020000000000000001 := by
  decide +kernel

/-- Shift amounts 1 and 63, the ends of the range. -/
theorem witness_PairShiftIsTruncatingShift :
    (0 < 1 ∧ 1 < 64 ∧ shlPair 1 0xc0000000000000008000000000000001 = 0x80000000000000010000000000000002) ∧
      (0 < 63 ∧ 63 < 64 ∧ shlPair 63 0xc0000000000000008000000000000003 = 0x40000000000000018000000000000000) := by
  decide +kernel

/-- The first and last bit of each field. -/
theorem witness_RequestWordFields :
    decodeReq (reqOfPorts 0x80000000000000018000000000000003 0x80000000000000058000000000000007) =
      .gfmul 0x8000000000000003 0x8000000000000001 0x8000000000000007 0x8000000000000005 := by
  decide +kernel

/-- 31, 32 and 33 bytes. -/
theorem witness_BeatsAreThirtyTwoBytes :
    (List.replicate 32 (0xff : Byte)).length = 32 ∧ (List.replicate 31 (0xff : Byte)).length < 32 ∧
      32 < (List.replicate 33 (0xff : Byte)).length ∧ wfBeat (List.replicate 32 0xff) = true := by
  decide

/-- A well-formed instruction, and bytes that decode. -/
theorem witness_EncodeDecodeRoundTrip :
    (Instr.gfmul 1 2 3 4).wf = true ∧ ∃ i, decode (List.replicate 32 0x80) = .ok i := ⟨rfl, _, rfl⟩

/-- The first and the last bit of the GCM form. -/
theorem witness_GcmFormBitMap :
    ofGcm #v[0x80, 0, 0, 0, 0, 0, 0, 0, 0, 0, 0, 0, 0, 0, 0, 0x01] = 0x80000000000000000000000000000001 := by
  decide +kernel

/-- A product of two bits 63 has its bit at 126, and none at 127. -/
theorem witness_Clmul64BitRule :
    126 < 128 ∧ 127 < 128 ∧ (clmul64 0x8000000000000000 0x8000000000000000).getLsbD 126 = true ∧
      (clmul64 0x8000000000000000 0x8000000000000000).getLsbD 127 = false := by
  refine ⟨by decide, by decide, ?_, ?_⟩ <;> rw [test_clmul64_top_bits] <;> decide

/-- Bits 0 and 127 of an operand. -/
theorem witness_KaratsubaAssembly :
    0 < 128 ∧ 127 < 128 ∧ (0x80000000000000000000000000000001 : Elem).getLsbD 127 = true := by
  decide

/-- The highest bit a product can have. -/
theorem witness_ProductDegree : 254 < 255 ∧ ¬ 255 < 255 := by decide

theorem polyOf_one (w : Nat) (h : 0 < w) : polyOf (1#w) = 1 := by
  rw [polyOf, Finset.sum_eq_single 0]
  · simp [h]
  · intro i _ hi
    simp [BitVec.getLsbD_one, hi]
  · intro hn
    exact absurd (Finset.mem_range.mpr h) hn

/-- A 128-bit value congruent to the input. -/
theorem witness_ReduceExactModP : gcmPoly ∣ polyOf (1#128) - polyOf (wideVec ⟨1, 0, 0, 0⟩) := by
  have h : wideVec ⟨1, 0, 0, 0⟩ = 1#256 := by decide +kernel
  rw [h, polyOf_one _ (by decide), polyOf_one _ (by decide), sub_self]
  exact dvd_zero _

/-- Before the first reset; with a head ready; with none; and with a head not ready. -/
theorem witness_OutputsRule :
    (fresh [] []).phase = .unreset ∧ (full [] []).phase = .running ∧
      (∃ x rest, (full [] []).q = x :: rest ∧ x.ready = true) ∧
      ((empty [] []).outputs false (draw true [])).rspValid = false ∧
      (({ empty [] [] with q := [⟨4, false, 0, none⟩] } : State).outputs false (draw true [])).rspValid = false ∧
      quietCycle.rst = (ask true).rst := by
  exact ⟨rfl, rfl, ⟨_, _, rfl, rfl⟩, rfl, rfl, rfl⟩

/-- A result is offered and not taken. -/
theorem witness_OfferedResultIsStable :
    ∃ x rest, RunningEdge (full [quiet] []) quietCycle ∧ (full [quiet] []).q = x :: rest ∧ x.ready = true ∧
      quietCycle.rspReady = false := ⟨_, _, runningEdge_of rfl rfl rfl, rfl, rfl, rfl⟩

/-- A request, no request, and loss of power. -/
theorem witness_StepRunsDecodedRequest :
    ((empty [.edge (ask false)] []).nextEvent = .edge (ask false) ∧ (ask false).reqValid = true) ∧
      ((empty [quiet] []).nextEvent = .edge quietCycle ∧ quietCycle.reqValid = false) ∧
      (empty [.powerLoss] []).nextEvent = .powerLoss := ⟨⟨rfl, rfl⟩, ⟨rfl, rfl⟩, rfl⟩

/-- The state after reset. -/
theorem witness_NoRequestWordStops : State.reset.phase = .running := rfl

/-- Room in an empty queue, and in one whose last place is free, with and without a deliver at the same edge. -/
theorem witness_GfmulAcceptAppendsProduct :
    (RunningEdge (empty [quiet] [draw true []]) quietCycle ∧
        (empty [quiet] [draw true []]).canAccept quietCycle = true) ∧
      (RunningEdge (half [quiet] [draw true []]) quietCycle ∧
        (half [quiet] [draw true []]).canAccept quietCycle = true ∧
        (half [quiet] [draw true []]).delivers quietCycle = false) ∧
      (RunningEdge (half [.edge take] [draw true []]) take ∧ (half [.edge take] [draw true []]).canAccept take = true ∧
        (half [.edge take] [draw true []]).delivers take = true) :=
  ⟨⟨runningEdge_of rfl rfl rfl, rfl⟩, ⟨runningEdge_of rfl rfl rfl, rfl, rfl⟩, ⟨runningEdge_of rfl rfl rfl, rfl, rfl⟩⟩

/-- Accepted, and not accepted because the queue is full, with an entry that stays. -/
theorem witness_GfmulFrame :
    (∃ t x, RunningEdge (half [quiet] [draw true []]) quietCycle ∧
        exec (.gfmul 2 0 2 0) (half [quiet] [draw true []]) = .next t ∧
        (half [quiet] [draw true []]).canAccept quietCycle = true ∧
        ((half [quiet] [draw true []]).keptQueue quietCycle)[0]? = some x) ∧
      (∃ t x b, RunningEdge (full [.edge take] [draw true []]) take ∧
        exec (.gfmul 2 0 2 0) (full [.edge take] [draw true []]) = .next t ∧
        (full [.edge take] [draw true []]).canAccept take = false ∧
        ((full [.edge take] [draw true []]).keptQueue take)[0]? = some x ∧ x.base = some b) :=
  ⟨⟨_, _, runningEdge_of rfl rfl rfl, rfl, rfl, rfl⟩, ⟨_, _, _, runningEdge_of rfl rfl rfl, rfl, rfl, rfl, rfl⟩⟩

/-- Accepted; and not accepted, because the queue is full or because `avail` is drawn 0. -/
theorem witness_OperandsAreThoseSampled :
    ((half [.edge (ask true)] [draw true []]).phase = .running ∧ (ask true).rst = false ∧ (ask true).reqValid = true ∧
        (half [.edge (ask true)] [draw true []]).canAccept (ask true) = true) ∧
      (full [.edge (ask true)] [draw true []]).canAccept (ask true) = false ∧
      (half [.edge (ask true)] [draw false []]).canAccept (ask true) = false := ⟨⟨rfl, rfl, rfl, rfl⟩, rfl, rfl⟩

/-- A head to take; none, with `rsp_ready` = 1 all the same; and one not ready, with a request that is accepted. -/
theorem witness_DeliverRemovesHead :
    (∃ x rest, RunningEdge (half [.edge (ask true)] [draw true []]) (ask true) ∧
        (half [.edge (ask true)] [draw true []]).q = x :: rest ∧ x.ready = true ∧ (ask true).rspReady = true) ∧
      (RunningEdge (empty [.edge take] []) take ∧ headReady (empty [.edge take] []).q = false) ∧
      (∃ s : State, RunningEdge s (ask true) ∧ s.q.length = 1 ∧ headReady s.q = false ∧
        (ask true).reqValid = true ∧ s.canAccept (ask true) = true) :=
  ⟨⟨_, _, runningEdge_of rfl rfl rfl, rfl, rfl, rfl⟩, ⟨runningEdge_of rfl rfl rfl, rfl⟩,
    { empty [.edge (ask true)] [draw true []] with q := [⟨4, false, 0, none⟩] }, runningEdge_of rfl rfl rfl, rfl, rfl, rfl, rfl⟩

/-- A `Running` block at an edge with `rst` = 1, and at one with `rst` = 0. -/
theorem witness_EdgeFunction :
    (full [] []).phase = .running ∧ rstAsk.rst = true ∧ (ask true).rst = false := ⟨rfl, rfl, rfl⟩

/-- An edge with `rst` = 0; one with `rst` = 1 at which the host drives both channels; and one before the first reset. -/
theorem witness_BeatsAreValidAndReady :
    RunningEdge (half [.edge (ask true)] [draw true []]) (ask true) ∧
      (∃ t, (full [.edge rstAsk] []).nextEvent = .edge rstAsk ∧ rstAsk.rst = true ∧
        step (full [.edge rstAsk] []) = .next t) ∧
      (∃ t, (fresh [quiet] []).phase = .unreset ∧ (fresh [quiet] []).nextEvent = .edge quietCycle ∧
        quietCycle.rst = false ∧ step (fresh [quiet] []) = .next t) :=
  ⟨runningEdge_of rfl rfl rfl, ⟨_, rfl, rfl, rfl⟩, ⟨_, rfl, rfl, rfl, rfl⟩⟩

/-- Two entries, neither ready, at edge 3: both accepted at edge 2, so edge 3 is their first under `LAT_MIN` = 1 and the
last of the head under `LAT_MAX` = 1. -/
def due (p : Params) (base : Option Nat) (completes : List Nat) : State :=
  { full [quiet] [draw true completes] with params := p, q := [⟨4, false, 2, base⟩, ⟨4, false, 2, none⟩] }

/-- A request on an idle block with `LAT_MIN` = 0 and `LAT_MAX` = 1: edge 0 is the first the new entry may become ready. -/
def atOnce (completes : List Nat) : State :=
  { empty [.edge (ask false)] [draw true completes] with params := ⟨.parallel, 1, 0, 1⟩ }

/-- Each clause at its boundary: an entry that is ready; the last edge, and the first edge with the draw naming the entry; an
entry not named, with its last edge not known or one edge off; max(t, t_prev) known, and not known for the head, behind an
entry that is ready, and behind one that is not; and an entry accepted at the edge, which `LAT_MIN` = 0 lets be ready. -/
theorem witness_ReadyEdgeBounds :
    (∃ t x y, RunningEdge (full [quiet] [draw true []]) quietCycle ∧ step (full [quiet] [draw true []]) = .next t ∧
        ((full [quiet] [draw true []]).queueToComplete quietCycle)[0]? = some x ∧ x.ready = true ∧ t.q[0]? = some y) ∧
      (∃ t x y z, RunningEdge (due .ref (some 2) [1]) quietCycle ∧ step (due .ref (some 2) [1]) = .next t ∧
        ((due .ref (some 2) [1]).queueToComplete quietCycle)[0]? = some x ∧ x.ready = false ∧ x.base = some 2 ∧ x.t ≤ 2 ∧
        2 + Params.ref.latMax = (due .ref (some 2) [1]).edgeNo ∧
        ((due .ref (some 2) [1]).queueToComplete quietCycle)[1]? = some y ∧ y.ready = false ∧ y.base = none ∧
        y.t + Params.ref.latMin = (due .ref (some 2) [1]).edgeNo ∧
        1 ∈ ((due .ref (some 2) [1]).nextDraw quietCycle).completes ∧ t.q[0]? = some z ∧ z.ready = true) ∧
      (∃ t x y z u, RunningEdge (due ⟨.parallel, 1, 1, 1⟩ (some 2) []) quietCycle ∧
        step (due ⟨.parallel, 1, 1, 1⟩ (some 2) []) = .next t ∧
        ((due ⟨.parallel, 1, 1, 1⟩ (some 2) []).queueToComplete quietCycle)[0]? = some x ∧ x.ready = false ∧
        0 ∉ ((due ⟨.parallel, 1, 1, 1⟩ (some 2) []).nextDraw quietCycle).completes ∧
        t.q[0]? = some z ∧ z.base = some 2 ∧
        (due ⟨.parallel, 1, 1, 1⟩ (some 2) []).edgeNo + 1 = 2 + (⟨.parallel, 1, 1, 1⟩ : Params).latMax ∧ z.ready = false ∧
        ((due ⟨.parallel, 1, 1, 1⟩ (some 2) []).queueToComplete quietCycle)[1]? = some y ∧ y.base = none ∧
        t.q[1]? = some u ∧ u.base = none) ∧
      (∃ t x z, RunningEdge (due .ref none []) quietCycle ∧ step (due .ref none []) = .next t ∧
        ((due .ref none []).queueToComplete quietCycle)[0]? = some x ∧ x.base = none ∧ t.q[0]? = some z ∧ z.base = some 3) ∧
      (∃ t x z, RunningEdge (atOnce [0]) (ask false) ∧ step (atOnce [0]) = .next t ∧
        ((atOnce [0]).queueToComplete (ask false))[0]? = some x ∧ x.ready = false ∧
        x.t + (atOnce [0]).params.latMin = (atOnce [0]).edgeNo ∧ t.q[0]? = some z ∧ z.ready = true) ∧
      (∃ t x z, RunningEdge (atOnce []) (ask false) ∧ step (atOnce []) = .next t ∧
        ((atOnce []).queueToComplete (ask false))[0]? = some x ∧ x.ready = false ∧
        0 ∉ ((atOnce []).nextDraw (ask false)).completes ∧ t.q[0]? = some z ∧ z.base = some 0 ∧ z.ready = false) :=
  ⟨⟨_, _, _, runningEdge_of rfl rfl rfl, rfl, rfl, rfl, rfl⟩,
    ⟨_, _, _, _, runningEdge_of rfl rfl rfl, rfl, rfl, rfl, rfl, by decide, rfl, rfl, rfl, rfl, rfl, by decide, rfl, rfl⟩,
    ⟨_, _, _, _, _, runningEdge_of rfl rfl rfl, rfl, rfl, rfl, by decide, rfl, rfl, rfl, rfl, rfl, rfl, rfl, rfl⟩,
    ⟨_, _, _, runningEdge_of rfl rfl rfl, rfl, rfl, rfl, rfl, rfl⟩,
    ⟨_, _, _, runningEdge_of rfl rfl rfl, rfl, rfl, rfl, rfl, rfl, rfl⟩,
    ⟨_, _, _, runningEdge_of rfl rfl rfl, rfl, rfl, rfl, by decide, rfl, rfl, rfl⟩⟩

/-- A `Running` block. -/
theorem witness_LookingHasNoEffect :
    (full [.edge (ask true)] []).phase = .running ∧ (full [.edge (ask true)] []).host = [.edge (ask true)] := ⟨rfl, rfl⟩

/-- Reset of a `Running` block in the middle of everything, held for a second edge; and the first reset. -/
theorem witness_ResetEffect :
    (∃ t, (full [.edge rstAsk, .edge rstAsk] []).nextEvent = .edge rstAsk ∧ rstAsk.rst = true ∧
        ((full [.edge rstAsk, .edge rstAsk] []).phase = .unreset → rstAsk.readsR = false) ∧
        step (full [.edge rstAsk, .edge rstAsk] []) = .next t ∧ t.nextEvent = .edge rstAsk) ∧
      ((fresh [.edge rstAsk] []).nextEvent = .edge rstAsk ∧ (fresh [.edge rstAsk] []).phase = .unreset ∧
        rstAsk.readsR = false) := ⟨⟨_, rfl, rfl, fun _ => rfl, rfl, rfl⟩, rfl, rfl, rfl⟩

/-- A full block at a reset edge. -/
theorem witness_GfmulAtResetEdgeIsLost :
    (full [.edge rstAsk] []).phase = .running ∧ (full [.edge rstAsk] []).nextEvent = .edge rstAsk ∧
      rstAsk.rst = true := ⟨rfl, rfl, rfl⟩

/-- Each of the three ways to the fault, alone. -/
theorem witness_FaultIsUseBeforeReset :
    step (fresh [.edge { resetCycle with readsR := true }] []) = .fault .usedBeforeReset ∧
      step (fresh [.edge (ask false)] [{ draw true [] with xRspValid := false }]) = .fault .usedBeforeReset ∧
      step (fresh [.edge take] [{ draw true [] with xReqReady := false }]) = .fault .usedBeforeReset := ⟨rfl, rfl, rfl⟩

/-- A beat on each channel; no beat though the host drives both; and the first reset. -/
theorem witness_UnresetEdge :
    (fresh [.edge (ask true)] []).phase = .unreset ∧ (ask true).rst = false ∧
      ((ask false).reqValid && ((fresh [.edge (ask false)] [draw true []]).outputs (ask false).rst
        ((fresh [.edge (ask false)] [draw true []]).nextDraw (ask false))).reqReady) = true ∧
      (take.rspReady && ((fresh [.edge take] [draw true []]).outputs take.rst
        ((fresh [.edge take] [draw true []]).nextDraw take)).rspValid) = true ∧
      (∃ t, step (fresh [.edge (ask true)] [⟨true, [], false, false, 0⟩]) = .next t ∧ t.phase = .unreset) ∧
      ((fresh [.edge rstAsk] []).nextEvent = .edge rstAsk ∧ rstAsk.rst = true ∧ rstAsk.readsR = false) :=
  ⟨rfl, rfl, rfl, rfl, ⟨_, rfl, rfl⟩, rfl, rfl, rfl⟩

/-- A step that stays `Unreset`, and one that resets. -/
theorem witness_UnresetQueueIsNotRead :
    (∃ t, step (fresh [quiet] []) = .next t ∧ t.phase = .unreset) ∧
      (∃ t, step (fresh [.edge rstAsk] []) = .next t ∧ t.phase = .running) := ⟨⟨_, rfl, rfl⟩, _, rfl, rfl⟩

/-- Before the first reset, a host that keeps off and one that resets; and after it, any step but loss of power. -/
theorem witness_DutifulHostIsSafe :
    ((fresh [quiet] []).phase = .unreset ∧ (fresh [quiet] []).nextEvent.keepsOff = true) ∧
      (fresh [.edge rstAsk] []).nextEvent.keepsOff = true ∧
      (∃ t, (full [.edge (ask true)] []).phase = .running ∧ (full [.edge (ask true)] []).nextEvent ≠ .powerLoss ∧
        step (full [.edge (ask true)] []) = .next t) :=
  ⟨⟨rfl, rfl⟩, rfl, _, rfl, by decide, rfl⟩

/-- A full block loses power. -/
theorem witness_PowerLossLosesQueue : (full [.powerLoss] []).nextEvent = .powerLoss := rfl

/-- The least parameters of the ranges, and a step. -/
theorem witness_ParametersAreFixed :
    (∃ depth latMin latMax : Nat, 1 ≤ depth ∧ latMin ≤ latMax ∧ depth = 1 ∧ latMax = 0) ∧
      (∃ t, step (full [.edge (ask true)] []) = .next t) ∧
      (∃ t, exec (.gfmul 2 0 2 0) (full [quiet] []) = .next t) :=
  ⟨⟨1, 0, 0, le_refl _, le_refl _, rfl, rfl⟩, ⟨_, rfl⟩, _, rfl⟩

/-- A full block steps. -/
theorem witness_EveryStepKeepsInvariant :
    (full [.edge (ask true)] []).Inv ∧ (∃ t, step (full [.edge (ask true)] []) = .next t) ∧
      (∃ t, exec (.gfmul 2 0 2 0) (full [.edge (ask true)] []) = .next t) :=
  ⟨full_inv _ _, ⟨_, rfl⟩, _, rfl⟩

/-- Three edges from a reset: an accept, a wait, and a deliver. And a step that does not reset. -/
theorem witness_ResultsComeInAcceptanceOrder :
    (∃ t, Sys2Proof.core.run 3 (empty [.edge (ask false), quiet, .edge take] [draw true [], draw true [], draw true []]) =
        .next t ∧ t.phase = .running ∧ 0 < t.delivered.length) ∧
      (∃ t, (full [.edge (ask true)] []).nextEvent.noReset = true ∧ step (full [.edge (ask true)] []) = .next t) :=
  ⟨⟨_, rfl, rfl, by decide⟩, _, rfl, rfl⟩

/-- With nothing in flight and with a full queue. -/
theorem witness_DrainedWhenCountsAgree :
    ((empty [] []).Inv ∧ (empty [] []).phase = .running) ∧ ((full [] []).Inv ∧ (full [] []).phase = .running) :=
  ⟨⟨empty_inv _ _, rfl⟩, full_inv _ _, rfl⟩

/-- Two full blocks whose operands and results differ, at an edge with other operands. -/
theorem witness_ConstantTime :
    SameControl (full [.edge (ask true)] [])
        { full [.edge { ask true with reqA := 7 }] [] with
          q := [⟨0, true, 0, some 0⟩, ⟨1, false, 1, some 2⟩], accepted := [(0, 5), (1, 1)] } ∧
      (full [.edge (ask true)] []).nextEvent.control =
        (full [.edge { ask true with reqA := 7 }] []).nextEvent.control ∧
      (ask true).seen = ({ ask true with reqA := 7 } : HostCycle).seen :=
  ⟨⟨rfl, rfl, ⟨rfl, rfl, rfl, rfl, rfl, rfl, trivial⟩, rfl, rfl⟩, rfl, rfl⟩

/-- A full queue and a host that asks and does not take, for two edges. -/
theorem witness_FullQueueWaits :
    (full [.edge (ask false), .edge (ask false)] []).phase = .running ∧
      (full [.edge (ask false), .edge (ask false)] []).params.depth ≤
        (full [.edge (ask false), .edge (ask false)] []).q.length ∧
      (full [.edge (ask false), .edge (ask false)] []).hostHolds 2 false := by
  refine ⟨rfl, by decide, by decide, ?_⟩
  intro ev hev
  have : ev = .edge (ask false) := by simpa [full, empty] using hev
  exact ⟨_, this, rfl, rfl⟩

/-- The second entry of a full queue, within 2 * `LAT_MAX` edges. -/
theorem witness_EveryEntryBecomesReady :
    ∃ x, (full [quiet, quiet] []).Inv ∧ (full [quiet, quiet] []).phase = .running ∧
      (full [quiet, quiet] []).q[1]? = some x ∧ x.ready = false ∧
      (1 + 1) * (full [quiet, quiet] []).params.latMax = 2 ∧ (full [quiet, quiet] []).hostHolds 2 false := by
  refine ⟨_, full_inv _ _, rfl, rfl, rfl, rfl, by decide, ?_⟩
  intro ev hev
  have : ev = .edge quietCycle := by simpa [full, empty, quiet] using hev
  exact ⟨_, this, rfl, rfl⟩

/-- A request on an idle block, and then `LAT_MAX` + 1 = 2 edges of waiting. -/
theorem witness_GfmulDeliversItsProduct :
    (empty [.edge (ask false), .edge take, .edge take] [draw true []]).q = [] ∧
      (empty [.edge (ask false), .edge take, .edge take] [draw true []]).canAccept (ask false) = true ∧
      (ask false).rst = false ∧ (ask false).reqValid = true ∧
      Params.ref.latMax + 1 = [HostEvent.edge take, HostEvent.edge take].length ∧
      (∀ ev ∈ [HostEvent.edge take, HostEvent.edge take].take (Params.ref.latMax + 1),
        ∃ w : HostCycle, ev = .edge w ∧ w.rst = false ∧ w.reqValid = false ∧ w.rspReady = true) := by
  refine ⟨rfl, rfl, rfl, rfl, rfl, ?_⟩
  intro ev hev
  have : ev = .edge take := by simpa [Params.ref, Params.latMax] using hev
  exact ⟨_, this, rfl, rfl, rfl⟩

/-- A full block, `avail` drawn 0 for `LAT_MAX` + 1 = 2 edges and then 1. -/
theorem witness_FairBlockServesRequest :
    ∃ s : State, s.Inv ∧ s.phase = .running ∧ 2 + 1 ≤ s.host.length ∧
      (∀ ev ∈ s.host.take (2 + 1),
        ∃ c : HostCycle, ev = .edge c ∧ c.rst = false ∧ c.reqValid = true ∧ c.rspReady = true) ∧
      s.params.latMax + 1 = 2 ∧ s.params.depth = s.q.length ∧
      (∃ d : Draw, s.draws[2]? = some d ∧ d.avail = true) := by
  refine ⟨full (List.replicate 3 (.edge (ask true))) [draw false [], draw false [], draw true []], full_inv _ _, rfl,
    by decide, ?_, rfl, rfl, _, rfl, rfl⟩
  intro ev hev
  have : ev = .edge (ask true) := by simpa [full, empty] using hev
  exact ⟨_, this, rfl, rfl, rfl⟩

/-- A `gfmul` line that is served and one that waits; a `recv` line that is served and one that waits. -/
theorem witness_ScriptLinesTakeTheirBeats :
    (half [] [draw true []]).canAccept (gfmulCycle 2 2) = true ∧
      (full [] [draw true []]).canAccept (gfmulCycle 2 2) = false ∧
      (Operand.lit 2).value [("n", 3)] = some 2 ∧ (Operand.name "n").value [("n", 3)] = some 3 ∧
      (onBlock [.recv "r"] (half [] [])).block.phase = .running ∧
      headReady (half [] []).q = true ∧ headReady (empty [] []).q = false :=
  ⟨rfl, rfl, rfl, rfl, rfl, rfl, rfl⟩

/-- A script of one `gfmul` and one `recv` line ends after three edges. -/
theorem witness_EndedScriptHasDrained :
    ∃ t, (empty [] (List.replicate 3 (draw true []))).Inv ∧
      (∀ l ∈ [Line.gfmul (.lit 2) (.lit 2), .recv "r"], l ≠ .reset) ∧
      gfmulLines [.gfmul (.lit 2) (.lit 2), .recv "r"] = recvLines [.gfmul (.lit 2) (.lit 2), .recv "r"] ∧
      scriptRun 3 (onBlock [.gfmul (.lit 2) (.lit 2), .recv "r"] (empty [] (List.replicate 3 (draw true [])))) = .next t ∧
      t.isEnded = true := ⟨_, empty_inv _ _, by decide, rfl, rfl, rfl⟩

/-- The same script, on the same block: it ends, and takes one result. -/
theorem witness_ScriptAcceptsItsEncoding :
    ∃ t, (empty [] (List.replicate 3 (draw true []))).phase = .running ∧
      (∀ l ∈ [Line.gfmul (.lit 2) (.lit 2), .recv "r"], l ≠ .reset) ∧
      scriptRun 3 (onBlock [.gfmul (.lit 2) (.lit 2), .recv "r"] (empty [] (List.replicate 3 (draw true [])))) = .next t ∧
      t.isEnded = true ∧ t.block.delivered.length = 1 := ⟨_, rfl, by decide, rfl, rfl, rfl⟩

/-- Two names with values. -/
theorem witness_HostComputesAnyFunction :
    ["a", "b"].map (fun n => (Operand.name n).value [("b", 2), ("a", 1)]) = [(1 : Elem), 2].map some := by
  decide

/-- P3, before it starts and as it ends. -/
theorem witness_WellFormedScriptFindsItsNames :
    ∃ t, wfScript ((onBlock p3 (fresh [] (List.replicate 7 (draw true [])))).env.map (·.1)) p3 = true ∧
      scriptRun 9 (onBlock p3 (fresh [] (List.replicate 7 (draw true [])))) = .next t := ⟨_, rfl, rfl⟩

end Sys2Proof.Tests
end

section
/-! The words of a 256-bit value, bit by bit, and the statement of 00_scope.md R10. -/

namespace Sys2Proof.Machine

/-- Which word of a `WideProduct` holds each bit of its vector (00_scope.md R10). -/
theorem getLsbD_wideVec (x : WideProduct) (i : Nat) :
    (wideVec x).getLsbD i =
      if i < 64 then x.x0.getLsbD i else if i < 128 then x.x1.getLsbD (i - 64)
      else if i < 192 then x.x2.getLsbD (i - 128) else x.x3.getLsbD (i - 192) := by
  have above0 : (wideVec x).getLsbD i =
      if i < 64 then x.x0.getLsbD i else (x.x3 ++ x.x2 ++ x.x1 : BitVec 192).getLsbD (i - 64) := BitVec.getLsbD_append
  have above1 (k : Nat) : (x.x3 ++ x.x2 ++ x.x1 : BitVec 192).getLsbD k =
      if k < 64 then x.x1.getLsbD k else (elem x.x2 x.x3).getLsbD (k - 64) := BitVec.getLsbD_append
  have inX1 : i - 64 < 64 ↔ i < 128 := by omega
  have inX2 : i - 128 < 64 ↔ i < 192 := by omega
  simp only [above0, above1, getLsbD_elem, Nat.sub_sub, Nat.reduceAdd, inX1, inX2]

theorem getLsbD_wideVec_x0 (x : WideProduct) {i : Nat} (hi : i < 64) :
    (wideVec x).getLsbD i = x.x0.getLsbD i := by
  rw [getLsbD_wideVec, if_pos hi]

theorem getLsbD_wideVec_x1 (x : WideProduct) {i : Nat} (hi : i < 64) :
    (wideVec x).getLsbD (64 + i) = x.x1.getLsbD i := by
  rw [getLsbD_wideVec, if_neg (by omega), if_pos (by omega), Nat.add_sub_cancel_left]

theorem getLsbD_wideVec_x2 (x : WideProduct) {i : Nat} (hi : i < 64) :
    (wideVec x).getLsbD (128 + i) = x.x2.getLsbD i := by
  rw [getLsbD_wideVec, if_neg (by omega), if_neg (by omega), if_pos (by omega), Nat.add_sub_cancel_left]

theorem getLsbD_wideVec_x3 (x : WideProduct) (i : Nat) :
    (wideVec x).getLsbD (192 + i) = x.x3.getLsbD i := by
  rw [getLsbD_wideVec, if_neg (by omega), if_neg (by omega), if_neg (by omega), Nat.add_sub_cancel_left]

/-- A word of a vector is fixed by the 64 bits it is taken from. -/
theorem extractLsb'_eq_of_getLsbD_eq {v : BitVec 256} {start : Nat} {w : Word}
    (h : ∀ i < 64, v.getLsbD (start + i) = w.getLsbD i) : v.extractLsb' start 64 = w := by
  apply BitVec.eq_of_getLsbD_eq
  intro i hi
  rw [BitVec.getLsbD_extractLsb', decide_eq_true hi, Bool.true_and, h i hi]

@[simp] theorem wideOfVec_wideVec (x : WideProduct) : wideOfVec (wideVec x) = x := by
  have x0 : (wideVec x).extractLsb' 0 64 = x.x0 :=
    extractLsb'_eq_of_getLsbD_eq fun i hi => by rw [Nat.zero_add, getLsbD_wideVec_x0 x hi]
  have x1 : (wideVec x).extractLsb' 64 64 = x.x1 :=
    extractLsb'_eq_of_getLsbD_eq fun _ hi => getLsbD_wideVec_x1 x hi
  have x2 : (wideVec x).extractLsb' 128 64 = x.x2 :=
    extractLsb'_eq_of_getLsbD_eq fun _ hi => getLsbD_wideVec_x2 x hi
  have x3 : (wideVec x).extractLsb' 192 64 = x.x3 :=
    extractLsb'_eq_of_getLsbD_eq fun i _ => getLsbD_wideVec_x3 x i
  rw [wideOfVec, x0, x1, x2, x3]

/-- Settles O1: the halves of an element by the lemmas on `lo`, `hi` and `elem`; the four words by where each bit of
the vector stands. -/
theorem wordOrderOfElementAndProduct : Obligations.WordOrderOfElementAndProduct := by
  refine ⟨fun low high => ⟨lo_elem low high, hi_elem low high⟩, fun v => ⟨elem_lo_hi v, fun i hi => ?_⟩,
    fun x => ⟨wideOfVec_wideVec x, fun i hi => ?_⟩⟩
  · rw [getLsbD_lo, getLsbD_hi, decide_eq_true hi, Bool.true_and, Bool.true_and]
    exact ⟨rfl, rfl⟩
  · exact ⟨getLsbD_wideVec_x0 x hi, getLsbD_wideVec_x1 x hi, getLsbD_wideVec_x2 x hi, getLsbD_wideVec_x3 x i⟩

end Sys2Proof.Machine
end

section
/-! The outputs phase by phase (10_state.md R30), the reset edge (70_reset_and_hazards.md R172), and the two statements on
them. -/

namespace Sys2Proof.Machine

/-! ### The outputs -/

theorem headReady_eq_true_iff {q : List Entry} :
    headReady q = true ↔ ∃ x rest, q = x :: rest ∧ x.ready = true := by
  cases q <;> simp [headReady]

theorem headResult_of_headReady_eq_false {q : List Entry} (h : headReady q = false) (v : Elem) :
    headResult v q = v := by
  cases q with
  | nil => rfl
  | cons x rest => exact if_neg (Bool.eq_false_iff.mp h)

theorem headResult_cons_of_ready {x : Entry} (h : x.ready = true) (v : Elem) (rest : List Entry) :
    headResult v (x :: rest) = x.r := if_pos h

theorem State.outputs_unreset {s : State} (hs : s.phase = .unreset) (rst : Bool) (d : Draw) :
    s.outputs rst d = { reqReady := d.xReqReady, rspValid := d.xRspValid, rspR := d.xRspR } := by
  simp [State.outputs, hs]

theorem State.outputs_running_rst {s : State} (hs : s.phase = .running) (d : Draw) :
    s.outputs true d = { reqReady := false, rspValid := false, rspR := d.xRspR } := by
  simp [State.outputs, hs]

/-- With nothing in flight there is room, since `DEPTH` is at least 1 (00_scope.md R8), and nothing to offer. -/
theorem State.outputs_running_nil {s : State} (hs : s.phase = .running) (hq : s.q = []) (d : Draw) :
    s.outputs false d = { reqReady := d.avail, rspValid := false, rspR := d.xRspR } := by
  have hroom : s.q.length < s.params.depth := by rw [hq]; exact Nat.succ_pos _
  rw [State.outputs_running hs, decide_eq_true hroom, Bool.true_and, hq]
  rfl

theorem State.outputs_setHost (s : State) (evs : List HostEvent) (rst : Bool) (d : Draw) :
    ({ s with host := evs } : State).outputs rst d = s.outputs rst d := rfl

theorem State.nextDraw_setHost (s : State) (evs : List HostEvent) (c : HostCycle) :
    ({ s with host := evs } : State).nextDraw c = s.nextDraw c := rfl

/-- Settles O20: each phase by its equation for the outputs, and the last clause because neither the outputs nor the
draws they show see the host's coming events. -/
theorem outputsRule : Obligations.OutputsRule := by
  refine ⟨fun s rst o hs => ?anyOutput, fun s d hs => ?running, fun s c d => ?anyDraw, fun s c c' evs hrst => ?noPath⟩
  case anyOutput =>
    exact ⟨{ avail := false, completes := [], xReqReady := o.reqReady, xRspValid := o.rspValid, xRspR := o.rspR },
      State.outputs_unreset hs rst _⟩
  case running =>
    rw [State.outputs_running_rst hs, State.outputs_running hs]
    refine ⟨rfl, rfl, rfl, rfl, headReady_eq_true_iff, fun x rest hq hready => ?_,
      fun hnone => headResult_of_headReady_eq_false hnone _⟩
    rw [hq]
    exact headResult_cons_of_ready hready _ rest
  case anyDraw => exact ⟨[d], State.nextDraw_cons rfl c⟩
  case noPath =>
    rw [State.outputs_setHost, State.nextDraw_setHost, State.outputs_setHost, State.nextDraw_setHost, hrst]
    exact s.outputs_nextDraw c'.rst c c'

/-! ### The reset edge -/

/-- An edge with `rst` = 1 resets the block in either phase, unless the host uses `rsp_r` before the first reset
(log 6). -/
theorem State.edge_rst {s : State} {c : HostCycle} (hrst : c.rst = true)
    (hreads : s.phase = .unreset → c.readsR = false) : s.edge c = .next (s.doReset.consume c) := by
  unfold State.edge
  cases hs : s.phase with
  | running => rw [State.edgeWith_running hs, State.runningEdge_rst _ hrst]
  | unreset =>
    have noUse : (c.readsR || unresetBeat c (s.nextDraw c)) = false := by simp [hreads hs, unresetBeat, hrst]
    rw [State.edgeWith_unreset hs, noUse, hrst]
    rfl

theorem step_rst {s : State} {c : HostCycle} (he : s.nextEvent = .edge c) (hrst : c.rst = true)
    (hreads : s.phase = .unreset → c.readsR = false) : step s = .next (s.doReset.consume c) :=
  (step_edge he).trans (State.edge_rst hrst hreads)

/-- Settles O32: the step is `doReset`, and so is a second one, whose block is `Running`. -/
theorem resetEffect : Obligations.ResetEffect := by
  refine ⟨fun s c he hrst hreads => ?_, fun s d hs => ?_⟩
  · have outputsAfter (d : Draw) := State.outputs_running_nil (s := s.doReset.consume c) rfl rfl d
    refine ⟨_, step_rst he hrst hreads, rfl, rfl, rfl, rfl, rfl, rfl, rfl, rfl, fun d => ?_, fun c' he' hrst' => ?_⟩
    · rw [outputsAfter]
      exact ⟨rfl, rfl⟩
    · exact ⟨_, step_rst he' hrst' nofun, rfl, rfl, rfl, rfl⟩
  · rw [State.outputs_running_rst hs]
    exact ⟨rfl, rfl⟩

end Sys2Proof.Machine
end

section
/-! The iterative 64x64 primitive computes CLMUL64 (40_clmul.md section 1), so that GFMUL is one function whatever
`CLMUL_IMPL` is. -/

namespace Sys2Proof.Machine

/-! ### Sums that XOR -/

theorem xorSum_succ_left (n : Nat) (f : Nat → Bool) :
    xorSum (n + 1) f = (f 0 ^^ xorSum n fun i => f (i + 1)) := by
  induction n with
  | zero => rfl
  | succ n ih => rw [xorSum, ih, xorSum, Bool.xor_left_comm]

theorem xorSum_reflect (n : Nat) (f : Nat → Bool) : (xorSum (n + 1) fun i => f (n - i)) = xorSum (n + 1) f := by
  induction n generalizing f with
  | zero => rfl
  | succ n ih =>
    have tail : (xorSum (n + 1) fun i => f (n + 1 - i)) = xorSum (n + 1) fun i => f (i + 1) := by
      rw [← ih fun i => f (i + 1)]
      exact xorSum_congr fun i hi => by rw [Nat.sub_add_comm (Nat.le_of_lt_succ hi)]
    rw [xorSum, tail, Nat.sub_self, xorSum_succ_left (n + 1)]

theorem xorSum_add_of_eq_false {m : Nat} {f : Nat → Bool} (h : ∀ i, m ≤ i → f i = false) (n : Nat) :
    xorSum (m + n) f = xorSum m f := by
  induction n with
  | zero => rfl
  | succ n ih => rw [← Nat.add_assoc, xorSum, h _ (Nat.le_add_right m n), Bool.false_xor, ih]

theorem xorSum_eq_xorSum_of_eq_false {m n : Nat} {f : Nat → Bool} (hm : ∀ i, m ≤ i → f i = false)
    (hn : ∀ i, n ≤ i → f i = false) : xorSum m f = xorSum n f := by
  rw [← xorSum_add_of_eq_false hm n, Nat.add_comm, xorSum_add_of_eq_false hn]

/-! ### The two backends agree -/

/-- Bit k of CLMUL64 as the sum over the pairs (i, k - i) alone, which reads the same from either end. -/
theorem getLsbD_clmul64_eq_xorSum_succ (u v : Word) {k : Nat} (hk : k < 128) :
    (clmul64 u v).getLsbD k = xorSum (k + 1) fun i => u.getLsbD i && v.getLsbD (k - i) := by
  have sameSum : (xorSum 64 fun i => Nat.ble i k && (u.getLsbD i && v.getLsbD (k - i))) =
      xorSum (k + 1) fun i => Nat.ble i k && (u.getLsbD i && v.getLsbD (k - i)) :=
    xorSum_eq_xorSum_of_eq_false (fun i aboveWord => by simp [BitVec.getLsbD_of_ge u i aboveWord])
      (fun i aboveBit => by simp [Nat.not_le.mpr aboveBit])
  rw [getLsbD_clmul64, decide_eq_true hk, Bool.true_and, sameSum]
  exact xorSum_congr fun i hi => by simp [Nat.le_of_lt_succ hi]

theorem clmul64_comm (u v : Word) : clmul64 u v = clmul64 v u := by
  apply BitVec.eq_of_getLsbD_eq
  intro k hk
  rw [getLsbD_clmul64_eq_xorSum_succ u v hk, getLsbD_clmul64_eq_xorSum_succ v u hk, ← xorSum_reflect]
  exact xorSum_congr fun i hi => by rw [Nat.sub_sub_self (Nat.le_of_lt_succ hi), Bool.and_comm]

/-- The accumulator after n iterations, bit by bit: the terms of CLMUL64(v, u) with i < n (40_clmul.md R81). -/
theorem getLsbD_clmulAcc (u v : Word) (n : Nat) {k : Nat} (hk : k < 128) :
    (clmulAcc u v n).getLsbD k = xorSum n fun i => Nat.ble i k && (v.getLsbD i && u.getLsbD (k - i)) := by
  induction n with
  | zero => simp [clmulAcc, xorSum]
  | succ n ih =>
    have shifted : (u.setWidth 128 <<< n).getLsbD k = (Nat.ble n k && u.getLsbD (k - n)) := by
      rw [BitVec.getLsbD_shiftLeft, BitVec.getLsbD_setWidth, decide_eq_true hk, decide_eq_true (Nat.sub_lt_of_lt hk)]
      cases Nat.lt_or_ge k n with
      | inl above => simp [above]
      | inr within => simp [within, Nat.not_lt.mpr within]
    rw [clmulAcc, xorSum]
    cases v.getLsbD n with
    | false => simp [ih]
    | true => simp [ih, shifted, Bool.xor_comm]

theorem clmul64Iter_eq_clmul64 (u v : Word) : clmul64Iter u v = clmul64 u v := by
  rw [clmul64_comm]
  apply BitVec.eq_of_getLsbD_eq
  intro k hk
  rw [clmul64Iter, getLsbD_clmulAcc u v 64 hk, getLsbD_clmul64, decide_eq_true hk, Bool.true_and]

theorem clmul64By_eq_clmul64 (impl : ClmulImpl) : clmul64By impl = clmul64 := by
  funext u v
  cases impl with
  | parallel => rfl
  | iterative => exact clmul64Iter_eq_clmul64 u v

/-- No backend changes GFMUL (42_gfmul.md R120). -/
theorem gfmulBy_eq_gfmul (impl : ClmulImpl) (a b : Elem) : gfmulBy impl a b = gfmul a b := by
  rw [gfmulBy, clmul128By, clmul64By_eq_clmul64, gfmul, clmul128]

end Sys2Proof.Machine
end

section
/-! Results in acceptance order (20_memory.md R48): each operation of an edge keeps the record `State.inOrder` and the
bound on the queue (10_state.md R31), so every step and every run does. -/

namespace Sys2Proof.Machine

/-! ### One edge -/

/-- A deliver beat moves the head's result from the queue to the end of the record. -/
theorem State.deliverIf_inOrder {s : State} {d : Draw} (hs : s.phase = .running) (h : s.inOrder) (c : HostCycle) :
    (s.deliverIf (s.outputs false d) c).inOrder := by
  rw [State.outputs_running hs, State.deliverIf]
  split
  next beat =>
    obtain ⟨x, rest, hq, hready⟩ := headReady_eq_true_iff.mp (Bool.and_eq_true_iff.mp beat).1
    simpa [State.inOrder, hq, headResult_cons_of_ready hready] using h
  next => exact h

theorem State.acceptIf_inOrder {s : State} (h : s.inOrder) (o : Outputs) (c : HostCycle) :
    (s.acceptIf o c).inOrder := by
  rw [State.acceptIf]
  split
  next =>
    rw [State.inOrder] at h
    simp [State.inOrder, h, gfmulBy_eq_gfmul]
  next => exact h

theorem State.complete_inOrder {s : State} (h : s.inOrder) (names : List Nat) : (s.complete names).inOrder := by
  simpa [State.inOrder] using h

theorem State.runningEdge_inOrder {s : State} (hs : s.phase = .running) (h : s.inOrder) (c : HostCycle) (d : Draw) :
    (s.runningEdge c d).inOrder := by
  cases hrst : c.rst with
  | true =>
    rw [State.runningEdge_rst d hrst]
    rfl
  | false =>
    rw [State.runningEdge, hrst]
    exact State.complete_inOrder (State.acceptIf_inOrder (State.deliverIf_inOrder hs h c) _ c) _

theorem State.deliverIf_q_length_le (s : State) (o : Outputs) (c : HostCycle) :
    (s.deliverIf o c).q.length ≤ s.q.length := by
  rw [State.deliverIf]
  split <;> simp

theorem State.acceptIf_q_length_le {s : State} {o : Outputs} {n : Nat} (h : s.q.length ≤ n)
    (room : o.reqReady = true → s.q.length < n) (c : HostCycle) : (s.acceptIf o c).q.length ≤ n := by
  rw [State.acceptIf]
  split
  next beat => simpa using room (Bool.and_eq_true_iff.mp beat).2
  next => exact h

/-- `req_ready` = 1 means there is room (10_state.md R30), so an accept beat does not overfill the queue. -/
theorem State.runningEdge_q_length_le {s : State} (hs : s.phase = .running) (h : s.q.length ≤ s.params.depth)
    (c : HostCycle) (d : Draw) : (s.runningEdge c d).q.length ≤ s.params.depth := by
  cases hrst : c.rst with
  | true =>
    rw [State.runningEdge_rst d hrst]
    exact Nat.zero_le _
  | false =>
    rw [State.runningEdge, hrst]
    have kept := s.deliverIf_q_length_le (s.outputs false d) c
    have room (ready : (s.outputs false d).reqReady = true) : s.q.length < s.params.depth := by
      rw [State.outputs_running hs] at ready
      exact of_decide_eq_true (Bool.and_eq_true_iff.mp ready).1
    simpa using State.acceptIf_q_length_le (kept.trans h) (fun ready => kept.trans_lt (room ready)) c

/-! ### Every step and every run -/

/-- The clauses of `State.Inv` on the records and the queue's length, without those on time. -/
def State.recordsAgree (s : State) : Prop :=
  s.phase = .running → s.q.length ≤ s.params.depth ∧ s.inOrder

theorem State.doReset_recordsAgree (s : State) : s.doReset.recordsAgree := fun _ => ⟨Nat.zero_le _, rfl⟩

theorem State.runningEdge_recordsAgree {s : State} (hs : s.phase = .running) (h : s.recordsAgree) (c : HostCycle)
    (d : Draw) : (s.runningEdge c d).recordsAgree := by
  intro _
  obtain ⟨room, order⟩ := h hs
  rw [State.runningEdge_params]
  exact ⟨State.runningEdge_q_length_le hs room c d, State.runningEdge_inOrder hs order c d⟩

theorem step_keeps_recordsAgree {s t : State} (h : s.recordsAgree) (hstep : step s = .next t) : t.recordsAgree := by
  obtain ⟨-, rfl⟩ | ⟨c, -, ⟨hs, rfl⟩ | ⟨-, -, rfl⟩ | ⟨-, -, rfl⟩⟩ := step_next_cases hstep
  · exact nofun
  · exact State.runningEdge_recordsAgree hs h c _
  · exact s.doReset_recordsAgree
  · exact h

/-- What every step of a machine keeps, every run of it keeps. -/
theorem run_keeps {M : Host.Core} {P : M.State → Prop} (hstep : ∀ s t, P s → M.step s = .next t → P t) (n : Nat)
    {s t : M.State} (hs : P s) (hrun : M.run n s = .next t) : P t := by
  induction n generalizing s with
  | zero =>
    cases hrun
    exact hs
  | succ n ih =>
    rw [Host.Core.run] at hrun
    split at hrun
    next u hu => exact ih (hstep s u hs hu) hrun
    next => cases hrun
    next => cases hrun

/-! ### What the record says -/

theorem State.inOrder.length_accepted {s : State} (h : s.inOrder) :
    s.accepted.length = s.delivered.length + s.q.length := by
  simpa using congrArg List.length h

theorem State.inOrder.delivered_getElem? {s : State} (h : s.inOrder) {k : Nat} (hk : k < s.delivered.length) :
    ∃ a b, s.accepted[k]? = some (a, b) ∧ s.delivered[k]? = some (gfmul a b) := by
  have image : (s.accepted.map fun ab => gfmul ab.1 ab.2)[k]? = s.delivered[k]? := by
    rw [h, List.getElem?_append_left hk]
  have inAccepted : k < s.accepted.length := by
    rw [h.length_accepted]
    exact Nat.lt_add_right _ hk
  refine ⟨s.accepted[k].1, s.accepted[k].2, List.getElem?_eq_getElem inAccepted, ?_⟩
  rw [← image, List.getElem?_map, List.getElem?_eq_getElem inAccepted, Option.map_some]

/-- A step of a `Running` block that is no reset only adds to the records. -/
theorem step_records_prefix {s t : State} (hs : s.phase = .running) (hev : s.nextEvent.noReset = true)
    (hstep : step s = .next t) : s.accepted <+: t.accepted ∧ s.delivered <+: t.delivered := by
  obtain ⟨he, -⟩ | ⟨c, he, ⟨-, rfl⟩ | ⟨hs', -⟩ | ⟨hs', -⟩⟩ := step_next_cases hstep
  · rw [he] at hev
    cases hev
  · have hrst : c.rst = false := by simpa [he, HostEvent.noReset] using hev
    rw [State.consume_accepted, State.consume_delivered, State.runningEdge_accepted _ hrst,
      State.runningEdge_delivered _ hrst]
    exact ⟨List.prefix_append _ _, List.prefix_append _ _⟩
  · cases hs.symm.trans hs'
  · cases hs.symm.trans hs'

/-- Settles O42: a reset block's records agree with its empty queue, every run keeps that, and the clauses on beats are
read off it. -/
theorem resultsComeInAcceptanceOrder : Obligations.ResultsComeInAcceptanceOrder := by
  refine ⟨fun n s t _ hq hacc hdel hrun ht => ?_, fun s t hs hev hstep => step_records_prefix hs hev hstep⟩
  have atReset : s.recordsAgree := fun _ => by simp [State.inOrder, hq, hacc, hdel]
  obtain ⟨room, order⟩ := run_keeps (M := Sys2Proof.core) (fun _ _ => step_keeps_recordsAgree) n atReset hrun ht
  rw [order.length_accepted]
  exact ⟨Nat.le_add_right _ _, Nat.add_le_add_left room _, fun k hk => order.delivered_getElem? hk⟩

end Sys2Proof.Machine
end

section
/-! The request word and its four fields (30_encoding.md R61), and the decoder as a constant function (R63). -/

namespace Sys2Proof.Machine

/-! ### The fields of the request word -/

theorem getLsbD_reqOfPorts_low (a b : Elem) {i : Nat} (hi : i < 128) :
    (reqOfPorts a b).getLsbD i = a.getLsbD i := by
  rw [getLsbD_reqOfPorts, if_pos hi]

theorem getLsbD_reqOfPorts_high (a b : Elem) (i : Nat) : (reqOfPorts a b).getLsbD (128 + i) = b.getLsbD i := by
  rw [getLsbD_reqOfPorts, if_neg (by omega), Nat.add_sub_cancel_left]

theorem lo_eq_iff {v : Elem} {w : Word} : lo v = w ↔ ∀ i < 64, w.getLsbD i = v.getLsbD i := by
  rw [BitVec.eq_of_getLsbD_eq_iff]
  exact forall₂_congr fun i hi => by rw [getLsbD_lo, decide_eq_true hi, Bool.true_and, eq_comm]

theorem hi_eq_iff {v : Elem} {w : Word} : hi v = w ↔ ∀ i < 64, w.getLsbD i = v.getLsbD (64 + i) := by
  rw [BitVec.eq_of_getLsbD_eq_iff]
  exact forall₂_congr fun i hi => by rw [getLsbD_hi, decide_eq_true hi, Bool.true_and, eq_comm]

/-- Settles O3: the word decodes to the halves of its ports, each half is fixed by its bits, and the bits of REQ are
those of the ports. -/
theorem requestWordFields : Obligations.RequestWordFields := by
  intro a b a0 a1 b0 b1
  rw [decodeReq_reqOfPorts, Instr.gfmul.injEq, lo_eq_iff, hi_eq_iff, lo_eq_iff, hi_eq_iff,
    ← forall₂_and, ← forall₂_and, ← forall₂_and]
  refine forall₂_congr fun i hi => ?_
  have bitA0 : (reqOfPorts a b).getLsbD i = a.getLsbD i := getLsbD_reqOfPorts_low a b (by omega)
  have bitA1 : (reqOfPorts a b).getLsbD (64 + i) = a.getLsbD (64 + i) := getLsbD_reqOfPorts_low a b (by omega)
  have bitB1 : (reqOfPorts a b).getLsbD (192 + i) = b.getLsbD (64 + i) := by
    rw [← getLsbD_reqOfPorts_high a b (64 + i), ← Nat.add_assoc]
  rw [bitA0, bitA1, getLsbD_reqOfPorts_high, bitB1, and_self, and_self, and_self, and_self]

/-! ### Words as bytes -/

@[simp] theorem length_bytesOfNat (n w : Nat) : (bytesOfNat n w).length = n := by
  induction n generalizing w with
  | zero => rfl
  | succ n ih => rw [bytesOfNat, List.length_cons, ih]

theorem natOfBytes_bytesOfNat (n w : Nat) : natOfBytes (bytesOfNat n w) = w % 256 ^ n := by
  induction n generalizing w with
  | zero => exact (Nat.mod_one w).symm
  | succ n ih => rw [bytesOfNat, natOfBytes, ih, Nat.pow_succ', Nat.mod_mul, BitVec.toNat_ofNat]

/-- A string of bytes of the right length is a beat, whatever its bits (30_encoding.md R65, R66). -/
theorem decode_of_length_eq {bytes : List Byte} (h : bytes.length = beatBytes) :
    decode bytes = .ok (decodeReq (BitVec.ofNat 256 (natOfBytes bytes))) := by
  rw [decode, h, if_neg (Nat.lt_irrefl _), if_neg (Nat.lt_irrefl _)]

theorem decodeTableWord_beat (w : Nat) : decodeTableWord 256 w = some (decodeReq (BitVec.ofNat 256 w)) := by
  have length : (bytesOfNat (tableBytes 256) (w % 2 ^ 256)).length = beatBytes := length_bytesOfNat _ _
  have sameWord : BitVec.ofNat 256 (w % 2 ^ 256 % 256 ^ tableBytes 256) = BitVec.ofNat 256 w := by
    apply BitVec.eq_of_toNat_eq
    have allBits : 256 ^ tableBytes 256 = 2 ^ 256 := by decide
    rw [allBits, BitVec.toNat_ofNat, BitVec.toNat_ofNat, Nat.mod_mod, Nat.mod_mod]
  rw [decodeTableWord, decode_of_length_eq length, natOfBytes_bytesOfNat, sameWord]
  rfl

/-- Settles O4: `Instr` has the one constructor, the decoder's equation is its definition, and the 32 bytes of a table
word give the word back. -/
theorem everyBeatIsGfmul : Obligations.EveryBeatIsGfmul := by
  refine ⟨fun i => ?_, fun req => rfl, decodeTableWord_beat⟩
  cases i with
  | gfmul a0 a1 b0 b1 => exact ⟨a0, a1, b0, b1, rfl⟩

end Sys2Proof.Machine
end

section
/-! What exec and step can end in (30_encoding.md R65), and the beats of one edge (30_encoding.md R60). -/

namespace Sys2Proof.Machine

/-! ### No request word stops a Running block -/

theorem exec_eq_edge_or_losePower (i : Instr) (s : State) :
    (∃ c, exec i s = s.edge c) ∨ exec i s = .next s.losePower := by
  cases i with
  | gfmul a0 a1 b0 b1 =>
    cases he : s.nextEvent with
    | edge c => exact .inl ⟨_, exec_gfmul_edge he a0 a1 b0 b1⟩
    | powerLoss => exact .inr (exec_gfmul_powerLoss he a0 a1 b0 b1)

theorem step_eq_edge_or_losePower (s : State) : (∃ c, step s = s.edge c) ∨ step s = .next s.losePower := by
  cases he : s.nextEvent with
  | edge c => exact .inl ⟨c, step_edge he⟩
  | powerLoss => exact .inr (step_powerLoss he)

theorem State.edge_running {s : State} (hs : s.phase = .running) (c : HostCycle) :
    s.edge c = .next ((s.runningEdge c (s.nextDraw c)).consume c) :=
  State.edgeWith_running hs c _

theorem State.edge_ne_refused (s : State) (c : HostCycle) (r : Refusal) : s.edge c ≠ .refused r := by
  cases hs : s.phase with
  | running =>
    rw [State.edge_running hs]
    exact nofun
  | unreset =>
    rw [State.edge, State.edgeWith_unreset hs]
    split <;> exact nofun

/-- Settles O23: exec and step end as an edge or a loss of power does; an edge of a `Running` block answers next, and no
edge refuses. -/
theorem noRequestWordStops : Obligations.NoRequestWordStops := by
  have answers {s : State} (hs : s.phase = .running) {o : Host.Outcome State Fault Refusal}
      (h : (∃ c, o = s.edge c) ∨ o = .next s.losePower) : ∃ t, o = .next t := by
    obtain ⟨c, rfl⟩ | rfl := h
    · exact ⟨_, State.edge_running hs c⟩
    · exact ⟨_, rfl⟩
  have neverRefuses {s : State} {o : Host.Outcome State Fault Refusal}
      (h : (∃ c, o = s.edge c) ∨ o = .next s.losePower) (r : Refusal) : o ≠ .refused r := by
    obtain ⟨c, rfl⟩ | rfl := h
    · exact s.edge_ne_refused c r
    · exact nofun
  exact ⟨fun i s hs => answers hs (exec_eq_edge_or_losePower i s),
    fun s hs => answers hs (step_eq_edge_or_losePower s),
    fun i s r => ⟨neverRefuses (exec_eq_edge_or_losePower i s) r, neverRefuses (step_eq_edge_or_losePower s) r⟩⟩

/-! ### The beats of one edge -/

/-- The step at an edge of a `Running` block with `rst` = 0. -/
theorem RunningEdge.step_eq {s : State} {c : HostCycle} (h : RunningEdge s c) :
    step s = .next ((s.runningEdge c (s.nextDraw c)).consume c) :=
  (step_edge h.event).trans (State.edge_running h.phase c)

/-- In either phase a step at an edge with `rst` = 1 that does not fault is the reset. -/
theorem eq_doReset_of_step_rst {s t : State} {c : HostCycle} (he : s.nextEvent = .edge c) (hrst : c.rst = true)
    (hstep : step s = .next t) : t = s.doReset.consume c := by
  obtain ⟨-, rfl⟩ | ⟨-, -, rfl⟩ | ⟨-, hrst', -⟩ := State.edge_next_cases ((step_edge he).symm.trans hstep)
  · rw [State.runningEdge_rst _ hrst]
  · rfl
  · cases hrst.symm.trans hrst'

/-- Before the first reset a step at an edge with `rst` = 0 that does not fault only spends the edge. -/
theorem eq_consume_of_step_unreset {s t : State} {c : HostCycle} (hs : s.phase = .unreset) (he : s.nextEvent = .edge c)
    (hrst : c.rst = false) (hstep : step s = .next t) : t = s.consume c := by
  obtain ⟨hs', -⟩ | ⟨-, hrst', -⟩ | ⟨-, -, rfl⟩ := State.edge_next_cases ((step_edge he).symm.trans hstep)
  · cases hs.symm.trans hs'
  · cases hrst.symm.trans hrst'
  · rfl

/-- A cycle that presents 1 * 1 and takes a result. -/
def bothChannelsCycle : HostCycle := recvCycle.withRequest elemOne elemOne

/-- A block under REF (92_eei_decisions.md D7), two edges after reset: 1 * 1 was accepted at edge 0 and became ready at
edge 1, and at the coming edge the host uses both channels and `avail` is 1. -/
def offeringState : State :=
  { State.reset with
    params := .ref
    q := [⟨elemOne, true, 0, some 0⟩]
    accepted := [(elemOne, elemOne)]
    hist := [quietCycle.seen, (gfmulCycle elemOne elemOne).seen]
    host := [.edge bothChannelsCycle]
    draws := [{ (default : Draw) with avail := true }] }

theorem runningEdge_offeringState : RunningEdge offeringState bothChannelsCycle :=
  ⟨rfl, State.nextEvent_cons rfl, rfl⟩

/-- Settles O29: the records after each kind of edge, and a state with a ready head and a free place for the edge that
carries both beats. -/
theorem beatsAreValidAndReady : Obligations.BeatsAreValidAndReady := by
  refine ⟨fun s c h => ?running, fun s t c he hrst hstep => ?reset, fun s t c hs he hrst hstep => ?unreset, ?both⟩
  case running => exact ⟨_, h.step_eq, State.runningEdge_accepted _ h.rst, State.runningEdge_delivered _ h.rst⟩
  case reset =>
    rw [eq_doReset_of_step_rst he hrst hstep]
    exact ⟨rfl, rfl⟩
  case unreset =>
    rw [eq_consume_of_step_unreset hs he hrst hstep]
    exact ⟨rfl, rfl⟩
  case both =>
    have edge := runningEdge_offeringState
    exact ⟨offeringState, _, bothChannelsCycle, edge, edge.step_eq, rfl, rfl⟩

end Sys2Proof.Machine
end

section
/-! The 64x64 primitive bit by bit (40_clmul.md R80): its sum over pairs as a parity, and its corner cases. -/

namespace Sys2Proof.Machine

/-! ### The sum as a parity -/

theorem xorSum_eq_true_iff_odd_card (n : Nat) (f : Nat → Bool) :
    xorSum n f = true ↔ Odd ((Finset.range n).filter fun i => f i = true).card := by
  induction n with
  | zero => simp [xorSum]
  | succ n ih =>
    rw [xorSum, Finset.range_add_one, Finset.filter_insert]
    cases hf : f n with
    | false => simp [ih]
    | true => simp [Nat.odd_add_one, ← ih]

/-- A pair (i, j) with i + j = k is fixed by its i. -/
theorem card_pairs_eq_card_left {w : Nat} (u v : BitVec w) (k : Nat) :
    ((Finset.range w ×ˢ Finset.range w).filter fun ij =>
        ij.1 + ij.2 = k ∧ u.getLsbD ij.1 = true ∧ v.getLsbD ij.2 = true).card =
      ((Finset.range w).filter fun i => (Nat.ble i k && (u.getLsbD i && v.getLsbD (k - i))) = true).card := by
  refine Finset.card_nbij' Prod.fst (fun i => (i, k - i)) ?maps ?mapsBack ?leftInv fun _ _ => rfl
  case maps =>
    rintro ⟨i, j⟩ h
    obtain ⟨⟨hi, -⟩, rfl, hu, hv⟩ : (i < w ∧ j < w) ∧ i + j = k ∧ u.getLsbD i = true ∧ v.getLsbD j = true := by
      simpa using h
    simp [hi, hu, hv]
  case mapsBack =>
    intro i h
    obtain ⟨hi, hk, hu, hv⟩ : i < w ∧ i ≤ k ∧ u.getLsbD i = true ∧ v.getLsbD (k - i) = true := by simpa using h
    simp [hi, hk, hu, hv, BitVec.lt_of_getLsbD hv]
  case leftInv =>
    rintro ⟨i, j⟩ h
    obtain ⟨-, rfl, -⟩ : (i < w ∧ j < w) ∧ i + j = k ∧ u.getLsbD i = true ∧ v.getLsbD j = true := by simpa using h
    simp

/-! ### The corner cases -/

@[simp] theorem clmul64_zero_left (v : Word) : clmul64 0#64 v = 0#128 := by
  apply BitVec.eq_of_getLsbD_eq
  intro k hk
  simp [getLsbD_clmul64]

@[simp] theorem clmul64_zero_right (u : Word) : clmul64 u 0#64 = 0#128 := by
  rw [clmul64_comm, clmul64_zero_left]

theorem clmul64_one_left (v : Word) : clmul64 1#64 v = v.setWidth 128 := by
  apply BitVec.eq_of_getLsbD_eq
  intro k hk
  rw [getLsbD_clmul64, xorSum_succ_left]
  simp [hk]

/-- Two bits of 0..63 add up to at most 126. -/
theorem getLsbD_127_clmul64 (u v : Word) : (clmul64 u v).getLsbD 127 = false := by
  have noTerm : (xorSum 64 fun i => Nat.ble i 127 && (u.getLsbD i && v.getLsbD (127 - i))) = xorSum 64 fun _ => false :=
    xorSum_congr fun i hi => by simp [BitVec.getLsbD_of_ge v (127 - i) (by omega)]
  rw [getLsbD_clmul64, noTerm, xorSum_false, Bool.and_false]

/-- Settles O9: the sum is true just when it has an odd number of true terms, and its terms are the pairs; the corner
cases by their lemmas, and the examples by the iterative backend, whose loop is the cheaper one to evaluate. -/
theorem clmul64BitRule : Obligations.Clmul64BitRule := by
  refine ⟨fun u v k hk => ?_, fun u v => rfl,
    fun v => ⟨clmul64_zero_left v, clmul64_zero_right v, clmul64_one_left v⟩,
    fun u v => ⟨getLsbD_127_clmul64 u v, clmul64_comm u v⟩, ?_, ?_⟩
  · rw [getLsbD_clmul64, decide_eq_true hk, Bool.true_and, xorSum_eq_true_iff_odd_card, card_pairs_eq_card_left]
  · rw [← clmul64Iter_eq_clmul64]
    decide +kernel
  · rw [← clmul64Iter_eq_clmul64]
    decide +kernel

end Sys2Proof.Machine
end

section
/-! The Karatsuba product (40_clmul.md R82): the cross-term identity, squares, and the degree of the product (R84). -/

namespace Sys2Proof.Machine

/-! ### The cross terms -/

theorem clmul64_xor_left (u u' v : Word) : clmul64 (u ^^^ u') v = clmul64 u v ^^^ clmul64 u' v := by
  apply BitVec.eq_of_getLsbD_eq
  intro k hk
  simp only [getLsbD_clmul64, BitVec.getLsbD_xor, decide_eq_true hk, Bool.true_and, ← xorSum_xor,
    Bool.and_xor_distrib_left, Bool.and_xor_distrib_right]

theorem clmul64_xor_right (u v v' : Word) : clmul64 u (v ^^^ v') = clmul64 u v ^^^ clmul64 u v' := by
  rw [clmul64_comm, clmul64_xor_left, clmul64_comm v, clmul64_comm v']

/-- The Karatsuba identity (40_clmul.md R82): what is left of E beside C and D is the two mixed products. -/
theorem clmul64_cross_terms (l h l' h' : Word) :
    clmul64 (l ^^^ h) (l' ^^^ h') ^^^ clmul64 h h' ^^^ clmul64 l l' = clmul64 l h' ^^^ clmul64 h l' := by
  rw [clmul64_xor_left, clmul64_xor_right, clmul64_xor_right]
  apply BitVec.eq_of_getLsbD_eq
  intro k _
  simp only [BitVec.getLsbD_xor]
  generalize (clmul64 l l').getLsbD k = ll, (clmul64 l h').getLsbD k = lh, (clmul64 h l').getLsbD k = hl,
    (clmul64 h h').getLsbD k = hh
  revert ll lh hl hh
  decide

/-- No backend changes the product (40_clmul.md R83). -/
theorem clmul128By_eq_clmul128 (impl : ClmulImpl) (a b : Elem) : clmul128By impl a b = clmul128 a b := by
  rw [clmul128By, clmul64By_eq_clmul64, clmul128]

@[simp] theorem clmul128_zero_left (b : Elem) : clmul128 0#128 b = ⟨0, 0, 0, 0⟩ := by
  simp [clmul128, clmul128With, lo, hi]

@[simp] theorem clmul128_zero_right (a : Elem) : clmul128 a 0#128 = ⟨0, 0, 0, 0⟩ := by
  simp [clmul128, clmul128With, lo, hi]

/-! ### Squares -/

/-- Equal terms cancel, so a sum that reads the same from either end is its middle term, and `false` without one. -/
theorem xorSum_of_palindrome (n : Nat) (f : Nat → Bool) (h : ∀ i < n, f i = f (n - 1 - i)) :
    xorSum n f = (decide (n % 2 = 1) && f (n / 2)) := by
  induction n using Nat.twoStepInduction generalizing f with
  | zero => rfl
  | one => simp [xorSum]
  | more n ih _ =>
    have ends : f 0 = f (n + 1) := h 0 (Nat.succ_pos _)
    have inner (i : Nat) (hi : i < n) : f (i + 1) = f (n - 1 - i + 1) := by
      rw [h (i + 1) (by omega), show n + 2 - 1 - (i + 1) = n - 1 - i + 1 by omega]
    rw [xorSum, xorSum_succ_left, ih (fun i => f (i + 1)) inner, ends, ← Bool.xor_assoc, Bool.xor_self,
      Bool.false_xor, Nat.add_mod_right, Nat.add_div_right n Nat.two_pos]

/-- A square spreads the bits of its operand (40_clmul.md R80). -/
theorem getLsbD_clmul64_self (u : Word) {k : Nat} (hk : k < 128) :
    (clmul64 u u).getLsbD k = (decide (k % 2 = 0) && u.getLsbD (k / 2)) := by
  rw [getLsbD_clmul64_eq_xorSum_succ u u hk, xorSum_of_palindrome]
  · cases Nat.mod_two_eq_zero_or_one k with
    | inl even =>
      have middle : (k + 1) / 2 = k / 2 := by omega
      have mirror : k - k / 2 = k / 2 := by omega
      simp [even, middle, mirror, Nat.succ_mod_two_eq_one_iff]
    | inr odd => simp [odd, Nat.succ_mod_two_eq_one_iff]
  · intro i hi
    rw [Nat.add_sub_cancel, Nat.sub_sub_self (Nat.le_of_lt_succ hi), Bool.and_comm]

/-- The mixed products of a square cancel. -/
theorem clmul64_self_xor (l h : Word) : clmul64 (l ^^^ h) (l ^^^ h) = clmul64 l l ^^^ clmul64 h h := by
  rw [clmul64_xor_left, clmul64_xor_right, clmul64_xor_right, clmul64_comm h l, BitVec.xor_assoc,
    ← BitVec.xor_assoc (clmul64 l h), BitVec.xor_self, BitVec.zero_xor]

theorem lo_xor (v w : Elem) : lo (v ^^^ w) = lo v ^^^ lo w := BitVec.extractLsb'_xor

theorem hi_xor (v w : Elem) : hi (v ^^^ w) = hi v ^^^ hi w := BitVec.extractLsb'_xor

theorem xor_xor_xor_xor_cancel (x y z : Word) : x ^^^ y ^^^ z ^^^ (z ^^^ y) = x := by
  rw [BitVec.xor_comm z y, BitVec.xor_assoc x y z, BitVec.xor_assoc, BitVec.xor_self, BitVec.xor_zero]

/-- In a square the middle terms cancel: it is the square of the high word beside that of the low word. -/
theorem clmul128_self (a : Elem) :
    clmul128 a a =
      { x3 := hi (clmul64 (hi a) (hi a)), x2 := lo (clmul64 (hi a) (hi a))
        x1 := hi (clmul64 (lo a) (lo a)), x0 := lo (clmul64 (lo a) (lo a)) } := by
  simp only [clmul128, clmul128With, clmul64_self_xor, lo_xor, hi_xor, xor_xor_xor_xor_cancel]

/-- A 256-bit value as its two halves. -/
theorem wideVec_eq_append_elem (x : WideProduct) : wideVec x = elem x.x2 x.x3 ++ elem x.x0 x.x1 :=
  BitVec.append_assoc

/-- A square spreads the bits of its operand, over both words (40_clmul.md R82). -/
theorem getLsbD_wideVec_clmul128_self (a : Elem) {k : Nat} (hk : k < 256) :
    (wideVec (clmul128 a a)).getLsbD k = (decide (k % 2 = 0) && a.getLsbD (k / 2)) := by
  have halves : (wideVec (clmul128 a a)).getLsbD k =
      if k < 128 then (clmul64 (lo a) (lo a)).getLsbD k else (clmul64 (hi a) (hi a)).getLsbD (k - 128) := by
    rw [wideVec_eq_append_elem, clmul128_self, elem_lo_hi, elem_lo_hi, BitVec.getLsbD_append]
  rw [halves]
  split
  · next low =>
    have inWord : k / 2 < 64 := by omega
    rw [getLsbD_clmul64_self _ low, getLsbD_lo, decide_eq_true inWord, Bool.true_and]
  · next high =>
    have inWord : (k - 128) / 2 < 64 := by omega
    have sameParity : (k - 128) % 2 = k % 2 := by omega
    have sameBit : 64 + (k - 128) / 2 = k / 2 := by omega
    rw [getLsbD_clmul64_self _ (by omega), getLsbD_hi, decide_eq_true inWord, Bool.true_and, sameParity, sameBit]

/-! ### The degree of the product, and its corner values -/

theorem getLsbD_63_x3_clmul128 (a b : Elem) : (clmul128 a b).x3.getLsbD 63 = false := by
  have top : (clmul128 a b).x3.getLsbD 63 = (clmul64 (hi a) (hi b)).getLsbD 127 := getLsbD_hi _ 63
  rw [top, getLsbD_127_clmul64]

theorem clmul128_allOnes_self :
    clmul128 (BitVec.allOnes 128) (BitVec.allOnes 128) =
      ⟨0x5555555555555555, 0x5555555555555555, 0x5555555555555555, 0x5555555555555555⟩ := by
  rw [← clmul128By_eq_clmul128 .iterative]
  decide +kernel

theorem clmul128_twoPow_127_self :
    clmul128 (BitVec.twoPow 128 127) (BitVec.twoPow 128 127) = ⟨0, 0, 0, 0x4000000000000000⟩ := by
  rw [← clmul128By_eq_clmul128 .iterative]
  decide +kernel

theorem clmul128_twoPow_64_self :
    clmul128 (BitVec.twoPow 128 64) (BitVec.twoPow 128 64) = ⟨0, 0, 1, 0⟩ := by
  rw [← clmul128By_eq_clmul128 .iterative]
  decide +kernel

theorem wideVec_clmul128_one_allOnes :
    wideVec (clmul128 1#128 (BitVec.allOnes 128)) = (BitVec.allOnes 128).setWidth 256 := by
  rw [← clmul128By_eq_clmul128 .iterative]
  decide +kernel

theorem wideVec_clmul128_twoPow_127_allOnes :
    wideVec (clmul128 (BitVec.twoPow 128 127) (BitVec.allOnes 128)) = (BitVec.allOnes 128).setWidth 256 <<< 127 := by
  rw [← clmul128By_eq_clmul128 .iterative]
  decide +kernel

/-- Settles O11: the assembly is the definition with either backend's primitive, which is CLMUL64; the cross terms and
squares by their lemmas, and the corner values by evaluation. -/
theorem karatsubaAssembly : Obligations.KaratsubaAssembly := by
  refine ⟨fun impl a b => ?assembly, fun a => ⟨clmul128_zero_right a, clmul128_zero_left a⟩, fun a i hi => ?square,
    clmul128_allOnes_self, clmul128_twoPow_127_self, clmul128_twoPow_64_self⟩
  case assembly =>
    rw [clmul128By_eq_clmul128]
    exact ⟨rfl, clmul64_cross_terms _ _ _ _, getLsbD_63_x3_clmul128 a b⟩
  case square =>
    have odd : (2 * i + 1) % 2 ≠ 0 := by omega
    rw [getLsbD_wideVec_clmul128_self a (by omega), getLsbD_wideVec_clmul128_self a (by omega), Nat.mul_mod_right,
      Nat.mul_div_cancel_left i Nat.two_pos, decide_eq_false odd]
    exact ⟨rfl, rfl⟩

/-- Settles O13: bit 255 is bit 127 of a CLMUL64. With all bits of b set, a = 1 sets the bits 0..127, and a = x^127 the
bits 127..254. -/
theorem productDegree : Obligations.ProductDegree := by
  refine ⟨fun a b => ⟨?bit255, getLsbD_63_x3_clmul128 a b⟩, fun k hk => ?lowerBit, ?bit254⟩
  case bit255 => rw [getLsbD_wideVec_x3 _ 63, getLsbD_63_x3_clmul128]
  case lowerBit =>
    cases Nat.lt_or_ge k 128 with
    | inl low =>
      refine ⟨1#128, BitVec.allOnes 128, ?_⟩
      rw [wideVec_clmul128_one_allOnes, BitVec.getLsbD_setWidth, BitVec.getLsbD_allOnes, decide_eq_true low, Bool.and_true,
        decide_eq_true (by omega)]
    | inr high =>
      have below : k < 256 := by omega
      have above : ¬ k < 127 := by omega
      have inOnes : k - 127 < 128 := by omega
      refine ⟨BitVec.twoPow 128 127, BitVec.allOnes 128, ?_⟩
      rw [wideVec_clmul128_twoPow_127_allOnes, BitVec.getLsbD_shiftLeft, BitVec.getLsbD_setWidth, BitVec.getLsbD_allOnes,
        decide_eq_true below, decide_eq_false above, decide_eq_true inOnes, decide_eq_true (Nat.sub_lt_of_lt below)]
      rfl
  case bit254 =>
    rw [clmul128_twoPow_127_self]
    decide

end Sys2Proof.Machine
end

section
/-! The folding of REDUCE (41_reduce.md R100) on whole 128-bit halves. -/

namespace Sys2Proof.Machine

/-! ### Pairs as 128-bit values -/

theorem elem_xor_elem (l h l' h' : Word) : elem l h ^^^ elem l' h' = elem (l ^^^ l') (h ^^^ h') :=
  BitVec.xor_append

theorem setWidth_eq_elem_zero (w : Word) : w.setWidth 128 = elem w 0#64 :=
  BitVec.setWidth_eq_append (by decide)

/-- The multi-word shift is the truncating 128-bit shift (00_scope.md R12): the bits below 64 come from the low word
alone; above, the low word's right shift supplies the bits that the high word's left shift lets in as zeros. -/
theorem shlPair_eq_shiftLeft {n : Nat} (hn : n < 64) (t : Elem) : shlPair n t = t <<< n := by
  apply BitVec.eq_of_getLsbD_eq
  intro i hi
  rw [shlPair, getLsbD_elem]
  split
  case isTrue low =>
    have inLow : i - n < 64 := by omega
    rw [BitVec.getLsbD_shiftLeft, BitVec.getLsbD_shiftLeft, getLsbD_lo, decide_eq_true low, decide_eq_true hi,
      decide_eq_true inLow, Bool.true_and, Bool.true_and]
  case isFalse high =>
    have noZeroFill : ¬ i < n := by omega
    have inHigh : i - 64 - n < 64 := by omega
    have inWord : i - 64 < 64 := by omega
    rw [BitVec.getLsbD_xor, BitVec.getLsbD_shiftLeft, BitVec.getLsbD_ushiftRight, BitVec.getLsbD_shiftLeft, getLsbD_hi,
      getLsbD_lo, decide_eq_true hi, decide_eq_true inWord, decide_eq_true inHigh, decide_eq_false noZeroFill]
    cases Nat.lt_or_ge (i - 64) n with
    | inl fromLow =>
      have inLow : i - n < 64 := by omega
      have sameBit : 64 - n + (i - 64) = i - n := by omega
      simp [fromLow, inLow, sameBit]
    | inr fromHigh =>
      have pastLow : ¬ 64 - n + (i - 64) < 64 := by omega
      have sameBit : 64 + (i - 64 - n) = i - n := by omega
      simp [Nat.not_lt.mpr fromHigh, pastLow, sameBit]

/-! ### The folding -/

/-- T of 41_reduce.md R100: the high half, with the bits that its shifts by 1, 2 and 7 push out folded into its low
word. -/
def foldTerm (x : WideProduct) : Elem :=
  elem x.x2 x.x3 ^^^ ((x.x3 >>> 63) ^^^ (x.x3 >>> 62) ^^^ (x.x3 >>> 57)).setWidth 128

/-- T as the pair (D, X3), steps 2 and 3 of 41_reduce.md R100. -/
theorem foldTerm_eq_elem (x : WideProduct) :
    foldTerm x = elem (x.x2 ^^^ (x.x3 >>> 63) ^^^ (x.x3 >>> 62) ^^^ (x.x3 >>> 57)) x.x3 := by
  simp only [foldTerm, setWidth_eq_elem_zero, elem_xor_elem, BitVec.xor_zero, BitVec.xor_assoc]

theorem foldTerm_high_zero (x0 x1 : Word) : foldTerm ⟨x0, x1, 0, 0⟩ = 0#128 := by
  simp [foldTerm, elem]

theorem reduce_eq_fold (x : WideProduct) :
    reduce x =
      elem x.x0 x.x1 ^^^ foldTerm x ^^^ (foldTerm x <<< 1) ^^^ (foldTerm x <<< 2) ^^^ (foldTerm x <<< 7) := by
  have shift {n : Nat} (hn : n < 64) :
      foldTerm x <<< n = elem (lo (shlPair n (foldTerm x))) (hi (shlPair n (foldTerm x))) := by
    rw [elem_lo_hi, shlPair_eq_shiftLeft hn]
  rw [shift (n := 1) (by decide), shift (n := 2) (by decide), shift (n := 7) (by decide), foldTerm_eq_elem]
  simp only [elem_xor_elem, reduce]

theorem reduce_high_zero (x0 x1 : Word) : reduce ⟨x0, x1, 0, 0⟩ = elem x0 x1 := by
  simp only [reduce_eq_fold, foldTerm_high_zero, BitVec.zero_shiftLeft, BitVec.xor_zero]

/-- Settles O14: the pair's shifts are 128-bit shifts, a zero high half folds to zero, and the corner values are by
evaluation. -/
theorem reduceFolding : Obligations.ReduceFolding := by
  refine ⟨reduce_eq_fold, reduce_high_zero, ?xToThe128, ?xToThe254, ?xToThe255, ?xToThe249, ?allOnes⟩
  all_goals decide +kernel

end Sys2Proof.Machine
end

section
/-! A bit vector as a polynomial over GF(2) (00_scope.md R11): its coefficients are its bits, so XOR is the sum, and
appending and shifting multiply by a power of x. -/

namespace Sys2Proof.Machine

open Polynomial

theorem coeff_polyOf {w : Nat} (v : BitVec w) (i : Nat) :
    (polyOf v).coeff i = if v.getLsbD i = true then 1 else 0 := by
  have term (j : Nat) : (if v.getLsbD j = true then (X ^ j : (ZMod 2)[X]) else 0).coeff i =
      if i = j then if v.getLsbD i = true then 1 else 0 else 0 := by
    split <;> split <;> simp_all [coeff_X_pow]
  rw [polyOf, finsetSum_coeff, Finset.sum_congr rfl fun j _ => term j, Finset.sum_ite_eq]
  cases Nat.lt_or_ge i w with
  | inl inside => rw [if_pos (Finset.mem_range.mpr inside)]
  | inr above => simp [BitVec.getLsbD_of_ge v i above]

theorem polyOf_injective (w : Nat) : Function.Injective (polyOf (w := w)) := by
  intro v v' h
  apply BitVec.eq_of_getLsbD_eq
  intro i _
  have sameCoeff := congrArg (coeff · i) h
  simp only [coeff_polyOf] at sameCoeff
  cases hv : v.getLsbD i <;> cases hv' : v'.getLsbD i <;> simp_all

theorem degree_polyOf_lt {w : Nat} (v : BitVec w) : (polyOf v).degree < w := by
  rw [degree_lt_iff_coeff_zero]
  intro i above
  simp [coeff_polyOf, BitVec.getLsbD_of_ge v i above]

@[simp] theorem polyOf_zero (w : Nat) : polyOf (0#w) = 0 := by
  simp [polyOf]

theorem polyOf_elemOne : polyOf elemOne = 1 := by
  ext i
  simp [coeff_polyOf, elemOne, BitVec.getLsbD_one, coeff_one, eq_comm]

@[simp] theorem polyOf_xor {w : Nat} (v v' : BitVec w) : polyOf (v ^^^ v') = polyOf v + polyOf v' := by
  ext i
  simp only [coeff_add, coeff_polyOf, BitVec.getLsbD_xor]
  cases v.getLsbD i <;> cases v'.getLsbD i <;> decide

theorem polyOf_append {m n : Nat} (high : BitVec m) (low : BitVec n) :
    polyOf (high ++ low) = polyOf low + X ^ n * polyOf high := by
  ext i
  rw [coeff_add, coeff_X_pow_mul', coeff_polyOf, coeff_polyOf, coeff_polyOf, BitVec.getLsbD_append]
  cases Nat.lt_or_ge i n with
  | inl inLow => simp [inLow]
  | inr inHigh => simp [inHigh]

theorem polyOf_setWidth {w n : Nat} (h : w ≤ n) (v : BitVec w) : polyOf (v.setWidth n) = polyOf v := by
  ext i
  rw [coeff_polyOf, coeff_polyOf, BitVec.getLsbD_setWidth]
  cases Nat.lt_or_ge i n with
  | inl inside => simp [inside]
  | inr above => simp [BitVec.getLsbD_of_ge v i (h.trans above)]

/-- A left shift multiplies by x^n, and loses what the right shift by w - n keeps. -/
theorem polyOf_shiftLeft_add {w n : Nat} (h : n ≤ w) (v : BitVec w) :
    polyOf (v <<< n) + X ^ w * polyOf (v >>> (w - n)) = X ^ n * polyOf v := by
  ext i
  rw [coeff_add, coeff_X_pow_mul', coeff_X_pow_mul', coeff_polyOf, coeff_polyOf, coeff_polyOf, BitVec.getLsbD_shiftLeft,
    BitVec.getLsbD_ushiftRight]
  cases Nat.lt_or_ge i w with
  | inl kept => cases Nat.lt_or_ge i n <;> simp_all [Nat.not_le.mpr]
  | inr lost =>
    have sameBit : w - n + (i - w) = i - n := by omega
    simp [lost, h.trans lost, sameBit]

theorem polyOf_elem (l h : Word) : polyOf (elem l h) = polyOf l + X ^ 64 * polyOf h := polyOf_append h l

theorem polyOf_wideVec (x : WideProduct) :
    polyOf (wideVec x) = polyOf (elem x.x0 x.x1) + X ^ 128 * polyOf (elem x.x2 x.x3) := by
  rw [wideVec_eq_append_elem, polyOf_append]

theorem polyOf_lo_hi (v : Elem) : polyOf v = polyOf (lo v) + X ^ 64 * polyOf (hi v) := by
  rw [← polyOf_elem, elem_lo_hi]

end Sys2Proof.Machine
end

section
/-! The multiplier on polynomials: CLMUL64 and CLMUL128 multiply (40_clmul.md R80, R82). -/

namespace Sys2Proof.Machine

open Polynomial

/-- A XOR of bits is their sum over GF(2). -/
theorem ite_xorSum_eq_sum (n : Nat) (f : Nat → Bool) :
    (if xorSum n f = true then 1 else 0 : ZMod 2) = ∑ i ∈ Finset.range n, if f i = true then 1 else 0 := by
  induction n with
  | zero => rfl
  | succ n ih =>
    rw [Finset.sum_range_succ, ← ih, xorSum]
    cases f n <;> cases xorSum n f <;> decide

theorem coeff_polyOf_mul_polyOf {m n : Nat} (u : BitVec m) (v : BitVec n) (k : Nat) :
    (polyOf u * polyOf v).coeff k =
      if (xorSum (k + 1) fun i => u.getLsbD i && v.getLsbD (k - i)) = true then 1 else 0 := by
  rw [coeff_mul, Finset.Nat.sum_antidiagonal_eq_sum_range_succ_mk, ite_xorSum_eq_sum]
  refine Finset.sum_congr rfl fun i _ => ?_
  simp only [coeff_polyOf, Bool.and_eq_true, ite_and, mul_ite, mul_one, mul_zero]
  cases u.getLsbD i <;> cases v.getLsbD (k - i) <;> rfl

/-- Two words have no bits i and j with i + j above 126. -/
theorem xorSum_pairs_of_ge (u v : Word) {k : Nat} (hk : 128 ≤ k) :
    (xorSum (k + 1) fun i => u.getLsbD i && v.getLsbD (k - i)) = false := by
  rw [← xorSum_false (k + 1)]
  refine xorSum_congr fun i _ => ?_
  cases Nat.lt_or_ge i 64 with
  | inl inU => rw [BitVec.getLsbD_of_ge v (k - i) (by omega), Bool.and_false]
  | inr aboveU => rw [BitVec.getLsbD_of_ge u i aboveU, Bool.false_and]

theorem polyOf_clmul64 (u v : Word) : polyOf (clmul64 u v) = polyOf u * polyOf v := by
  ext k
  rw [coeff_polyOf_mul_polyOf, coeff_polyOf]
  cases Nat.lt_or_ge k 128 with
  | inl inside => rw [getLsbD_clmul64_eq_xorSum_succ u v inside]
  | inr above => rw [xorSum_pairs_of_ge u v above, BitVec.getLsbD_of_ge _ k above]

/-- The Karatsuba assembly multiplies (40_clmul.md R82): over GF(2) the middle term C + D + E is the two mixed products. -/
theorem polyOf_clmul128 (a b : Elem) : polyOf (wideVec (clmul128 a b)) = polyOf a * polyOf b := by
  have c := polyOf_clmul64 (hi a) (hi b)
  have d := polyOf_clmul64 (lo a) (lo b)
  have e := polyOf_clmul64 (lo a ^^^ hi a) (lo b ^^^ hi b)
  have two : (2 : (ZMod 2)[X]) = 0 := CharTwo.two_eq_zero
  rw [polyOf_lo_hi] at c d e
  simp only [polyOf_wideVec, clmul128, clmul128With, polyOf_elem, polyOf_xor, polyOf_lo_hi a, polyOf_lo_hi b] at e ⊢
  linear_combination (X ^ 64 + X ^ 128) * c + (1 + X ^ 64) * d + X ^ 64 * e +
    X ^ 64 * (polyOf (hi a) * polyOf (hi b) + polyOf (lo a) * polyOf (lo b)) * two

end Sys2Proof.Machine
end

section
/-! The reducer modulo P (41_reduce.md section 1): REDUCE keeps the class of its input, and a class holds one 128-bit
value. -/

namespace Sys2Proof.Machine

open Polynomial

/-- The high word of the folded half is X3, so a right shift by at least 64 leaves bits of X3 alone. -/
theorem foldTerm_ushiftRight (x : WideProduct) {n : Nat} (hn : n ≤ 64) :
    foldTerm x >>> (128 - n) = (x.x3 >>> (64 - n)).setWidth 128 := by
  apply BitVec.eq_of_getLsbD_eq
  intro i hi
  have inHigh : ¬ 128 - n + i < 64 := by omega
  have sameBit : 128 - n + i - 64 = 64 - n + i := by omega
  rw [foldTerm_eq_elem, BitVec.getLsbD_ushiftRight, getLsbD_elem, if_neg inHigh, sameBit, BitVec.getLsbD_setWidth,
    BitVec.getLsbD_ushiftRight, decide_eq_true hi, Bool.true_and]

/-- P written out. A bare `rfl` would unfold the power of x too. -/
theorem gcmPoly_eq : gcmPoly = X ^ 128 + X ^ 7 + X ^ 2 + X + 1 := by
  unfold gcmPoly
  rfl

/-- REDUCE subtracts the multiple of P by the folded half T: T stands for the high half and what its shifts push out. -/
theorem polyOf_reduce (x : WideProduct) :
    polyOf (reduce x) = polyOf (wideVec x) + gcmPoly * polyOf (foldTerm x) := by
  have pushedOut {n : Nat} (hn : n ≤ 64) :
      polyOf (foldTerm x <<< n) + X ^ 128 * polyOf (x.x3 >>> (64 - n)) = X ^ n * polyOf (foldTerm x) := by
    have inPair : n ≤ 128 := by omega
    rw [← polyOf_shiftLeft_add inPair, foldTerm_ushiftRight x hn, polyOf_setWidth (by decide)]
  have by1 := pushedOut (n := 1) (by decide)
  have by2 := pushedOut (n := 2) (by decide)
  have by7 := pushedOut (n := 7) (by decide)
  have folded : polyOf (foldTerm x) = polyOf (elem x.x2 x.x3) +
      (polyOf (x.x3 >>> 63) + polyOf (x.x3 >>> 62) + polyOf (x.x3 >>> 57)) := by
    rw [foldTerm, polyOf_xor, polyOf_setWidth (by decide), polyOf_xor, polyOf_xor]
  have two : (2 : (ZMod 2)[X]) = 0 := CharTwo.two_eq_zero
  simp only [reduce_eq_fold, polyOf_xor, polyOf_wideVec, gcmPoly_eq]
  linear_combination by1 + by2 + by7 + X ^ 128 * folded - X ^ 128 * polyOf (foldTerm x) * two

theorem degree_gcmPoly : gcmPoly.degree = (128 : Nat) := by
  rw [gcmPoly_eq]
  compute_degree!

/-- Modulo a polynomial of degree w or more, a class holds at most one w-bit vector: two of them differ by less. -/
theorem eq_of_mk_polyOf_eq {f : (ZMod 2)[X]} {w : Nat} (hf : w ≤ f.degree) {v v' : BitVec w}
    (h : AdjoinRoot.mk f (polyOf v) = AdjoinRoot.mk f (polyOf v')) : v = v' := by
  have multiple : f ∣ polyOf v - polyOf v' := AdjoinRoot.mk_eq_mk.mp h
  have small : (polyOf v - polyOf v').degree < f.degree :=
    (degree_sub_le _ _).trans_lt ((max_lt (degree_polyOf_lt v) (degree_polyOf_lt v')).trans_le hf)
  exact polyOf_injective w (sub_eq_zero.mp (eq_zero_of_dvd_of_degree_lt multiple small))

/-- The class modulo P of an element: what GFMUL computes with (42_gfmul.md R120). -/
noncomputable def residue (v : Elem) : AdjoinRoot gcmPoly := AdjoinRoot.mk gcmPoly (polyOf v)

theorem residue_injective : Function.Injective residue :=
  fun _ _ => eq_of_mk_polyOf_eq degree_gcmPoly.ge

@[simp] theorem residue_zero : residue elemZero = 0 := by
  rw [residue, elemZero, polyOf_zero, map_zero]

@[simp] theorem residue_one : residue elemOne = 1 := by
  rw [residue, polyOf_elemOne, map_one]

@[simp] theorem residue_xor (a b : Elem) : residue (a ^^^ b) = residue a + residue b := by
  rw [residue, polyOf_xor, map_add, residue, residue]

/-- REDUCE is exact modulo P (41_reduce.md section 1). -/
theorem residue_reduce (x : WideProduct) : residue (reduce x) = AdjoinRoot.mk gcmPoly (polyOf (wideVec x)) := by
  rw [residue, polyOf_reduce, map_add, map_mul, AdjoinRoot.mk_self, zero_mul, add_zero]

@[simp] theorem residue_gfmul (a b : Elem) : residue (gfmul a b) = residue a * residue b := by
  rw [gfmul, residue_reduce, polyOf_clmul128, map_mul, residue, residue]

/-- Settles O18: an element is fixed by its class modulo P, on which GFMUL is the product and XOR the sum of a commutative
ring, with ONE and ZERO as its 1 and 0. -/
theorem gfmulFieldLaws : Obligations.GfmulFieldLaws := by
  refine ⟨polyOf_elemOne, fun a b => ?comm, fun a => ?identity, fun a => ?absorbing, fun a b c => ?distrib,
    fun a b c => ?assoc⟩ <;> apply residue_injective
  case comm => simp only [residue_gfmul, mul_comm]
  case identity => simp only [residue_gfmul, residue_one, mul_one]
  case absorbing => simp only [residue_gfmul, residue_zero, mul_zero]
  case distrib => simp only [residue_gfmul, residue_xor, mul_add]
  case assoc => simp only [residue_gfmul, mul_assoc]

end Sys2Proof.Machine
end

section
/-! One edge of a `Running` block with `rst` = 0 as one state (42_gfmul.md R128), for step and for exec, and the results in
flight after it. -/

namespace Sys2Proof.Machine

/-! ### The state after the edge -/

/-- The state after an edge with inputs c and `rst` = 0 of a `Running` block, field by field, in the words of the
statements. -/
def State.afterEdge (s : State) (c : HostCycle) : State :=
  { s with
    q := completeFrom s.params s.edgeNo (s.nextDraw c).completes 0 true (s.queueToComplete c)
    accepted := s.accepted ++ (if c.reqValid && s.canAccept c then [(c.reqA, c.reqB)] else [])
    delivered := s.delivered ++ (if s.delivers c then (s.q.map (·.r)).take 1 else [])
    hist := c.seen :: s.hist
    host := s.host.tail
    draws := s.draws.tail }

theorem singleton_headResult_of_headReady {q : List Entry} (h : headReady q = true) (v : Elem) :
    [headResult v q] = (q.map (·.r)).take 1 := by
  obtain ⟨x, rest, rfl, hready⟩ := headReady_eq_true_iff.mp h
  rw [headResult_cons_of_ready hready]
  rfl

theorem State.consume_runningEdge {s : State} {c : HostCycle} (hs : s.phase = .running) (hrst : c.rst = false) :
    (s.runningEdge c (s.nextDraw c)).consume c = s.afterEdge c := by
  have sent : (if headReady s.q && c.rspReady then [headResult (s.nextDraw c).xRspR s.q] else []) =
      if s.delivers c then (s.q.map (·.r)).take 1 else [] := by
    rw [State.delivers]
    split
    next beat => exact singleton_headResult_of_headReady (Bool.and_eq_true_iff.mp beat).1 _
    next => rfl
  have outputs := State.outputs_running hs (s.nextDraw c)
  rw [State.consume, State.runningEdge_hist, State.runningEdge_host, State.runningEdge_draws, State.mk.injEq]
  refine ⟨s.runningEdge_params c _, (State.runningEdge_phase hs c _).trans hs.symm, ?_, ?_, ?_, rfl, rfl, rfl⟩
  · rw [State.runningEdge_q _ hrst, hrst, outputs, gfmulBy_eq_gfmul]
    rfl
  · rw [State.runningEdge_accepted _ hrst, hrst, outputs]
    rfl
  · rw [State.runningEdge_delivered _ hrst, hrst, outputs]
    exact congrArg _ sent

theorem State.edge_eq_afterEdge {s : State} {c : HostCycle} (hs : s.phase = .running) (hrst : c.rst = false) :
    s.edge c = .next (s.afterEdge c) := by
  rw [State.edge_running hs, State.consume_runningEdge hs hrst]

theorem RunningEdge.step_eq_afterEdge {s : State} {c : HostCycle} (h : RunningEdge s c) :
    step s = .next (s.afterEdge c) :=
  (step_edge h.event).trans (State.edge_eq_afterEdge h.phase h.rst)

theorem RunningEdge.exec_gfmul_eq_afterEdge {s : State} {c : HostCycle} (h : RunningEdge s c) (a0 a1 b0 b1 : Word) :
    exec (.gfmul a0 a1 b0 b1) s = .next (s.afterEdge (c.withRequest (elem a0 a1) (elem b0 b1))) :=
  (exec_gfmul_edge h.event a0 a1 b0 b1).trans (State.edge_eq_afterEdge h.phase h.rst)

theorem State.afterEdge_q_length_le {s : State} {c : HostCycle} (hs : s.phase = .running) (hrst : c.rst = false)
    (h : s.q.length ≤ s.params.depth) : (s.afterEdge c).q.length ≤ s.params.depth := by
  rw [← State.consume_runningEdge hs hrst]
  exact State.runningEdge_q_length_le hs h c _

/-! ### The results in flight -/

theorem State.keptQueue_map_r (s : State) (c : HostCycle) : (s.keptQueue c).map (·.r) = s.keptResults c := by
  rw [State.keptQueue, State.keptResults]
  split
  next => exact List.map_tail
  next => rfl

theorem State.afterEdge_q_map_r (s : State) (c : HostCycle) :
    (s.afterEdge c).q.map (·.r) =
      s.keptResults c ++ (if c.reqValid && s.canAccept c then [gfmul c.reqA c.reqB] else []) := by
  rw [State.afterEdge, completeFrom_map_r, State.queueToComplete, List.map_append, State.keptQueue_map_r]
  split <;> rfl

/-- `req_ready` does not depend on the request (10_state.md R30). -/
@[simp] theorem State.canAccept_withRequest (s : State) (c : HostCycle) (a b : Elem) :
    s.canAccept (c.withRequest a b) = s.canAccept c := by
  rw [State.canAccept, State.nextDraw_avail s _ c, State.canAccept]

theorem State.delivers_of_head {s : State} {c : HostCycle} {x : Entry} {rest : List Entry} (hq : s.q = x :: rest)
    (hready : x.ready = true) (htake : c.rspReady = true) : s.delivers c = true := by
  rw [State.delivers, hq, htake, headReady, hready]
  rfl

theorem State.delivers_of_no_head {s : State} {c : HostCycle} (h : headReady s.q = false) : s.delivers c = false := by
  rw [State.delivers, h, Bool.false_and]

/-- Settles O27: a deliver takes the head's result from those in flight to the host's record, and with no ready head both
stay as they are. -/
theorem deliverRemovesHead : Obligations.DeliverRemovesHead := by
  refine ⟨fun s c x rest h hq hready htake => ⟨s.afterEdge c, _, h.step_eq_afterEdge, ?record, ?inFlight, rfl⟩,
    fun s c h hnone => ⟨s.afterEdge c, _, h.step_eq_afterEdge, ?noRecord, ?allInFlight, rfl⟩⟩
  case record =>
    rw [State.afterEdge, State.delivers_of_head hq hready htake, hq]
    rfl
  case inFlight =>
    rw [State.afterEdge_q_map_r, State.keptResults, State.delivers_of_head hq hready htake, hq]
    rfl
  case noRecord =>
    rw [State.afterEdge, State.delivers_of_no_head hnone]
    exact List.append_nil _
  case allInFlight =>
    rw [State.afterEdge_q_map_r, State.keptResults, State.delivers_of_no_head hnone]
    rfl

end Sys2Proof.Machine
end

section
/-! Completing one entry (42_gfmul.md R125): when it becomes ready and when its max(t, t_prev) is fixed; and with that the
statements on accepted requests and on the bounds of ready. -/

namespace Sys2Proof.Machine

/-! ### One entry -/

theorem completeEntry_base (p : Params) (e : Nat) (a n : Bool) (x : Entry) :
    (completeEntry p e a n x).base = baseAt e a x.base := rfl

theorem mustReady_eq_true_iff {p : Params} {e : Nat} {base : Option Nat} :
    mustReady p e base = true ↔ ∃ b, base = some b ∧ b + p.latMax ≤ e := by
  cases base <;> simp [mustReady]

/-- An entry becomes ready at an edge that is not too early for it, when it is named or the edge is its last. -/
theorem completeEntry_ready_iff {p : Params} {e : Nat} {a n : Bool} {x : Entry} (hx : x.ready = false) :
    (completeEntry p e a n x).ready = true ↔
      x.t + p.latMin ≤ e ∧ (n = true ∨ ∃ b, (completeEntry p e a n x).base = some b ∧ b + p.latMax ≤ e) := by
  rw [← mustReady_eq_true_iff, completeEntry_base]
  simp [completeEntry, hx, mayReady]

theorem aheadReady_true_iff {q : List Entry} {i : Nat} :
    aheadReady true q i = true ↔ i = 0 ∨ ∃ z, q[i - 1]? = some z ∧ z.ready = true := by
  cases i with
  | zero => simp [aheadReady]
  | succ i => cases hz : q[i]? <;> simp [aheadReady, hz]

/-! ### The queue after an edge -/

theorem State.afterEdge_q_getElem? {s : State} {c : HostCycle} {i : Nat} {x : Entry}
    (h : (s.queueToComplete c)[i]? = some x) :
    (s.afterEdge c).q[i]? = some (completeEntry s.params s.edgeNo (aheadReady true (s.afterEdge c).q i)
      ((s.nextDraw c).completes.contains i) x) := by
  rw [State.afterEdge, completeFrom_getElem?, h, Nat.zero_add, Option.map_some]

/-- Settles O30: each entry is completed by itself, and each clause is one on completing an entry. -/
theorem readyEdgeBounds : Obligations.ReadyEdgeBounds := by
  intro s t c h hstep
  obtain rfl : s.afterEdge c = t := by simpa [h.step_eq_afterEdge] using hstep
  refine ⟨completeFrom_length .., fun i x hx => ⟨_, State.afterEdge_q_getElem? hx, rfl, rfl,
    completeEntry_ready_mono _ _ _ _, ?early, ?named, ?notNamed, ?lastEdge,
    fun b => completeEntry_base_some _ _ _ _, ?fixed, ?notFixed⟩⟩
  case early => exact fun hnot hready => ((completeEntry_ready_iff hnot).mp hready).1
  case named =>
    intro hnot hmay hname
    exact (completeEntry_ready_iff hnot).mpr ⟨hmay, .inl (List.contains_iff_mem.mpr hname)⟩
  case notNamed =>
    intro hnot hname hlater
    rw [Bool.eq_false_iff, Ne, completeEntry_ready_iff hnot]
    rintro ⟨-, hnamed | ⟨b, hb, hlast⟩⟩
    · exact hname (List.contains_iff_mem.mp hnamed)
    · exact absurd hlast (Nat.not_le.mpr (hlater b hb))
  case lastEdge =>
    intro b hb hbase hlast
    cases hready : x.ready with
    | true => exact completeEntry_ready_mono _ _ _ _ hready
    | false =>
      have hmay : x.t + s.params.latMin ≤ s.edgeNo :=
        (Nat.add_le_add hbase (Nat.le_add_right _ _)).trans hlast
      exact (completeEntry_ready_iff hready).mpr ⟨hmay, .inr ⟨b, hb, hlast⟩⟩
  case fixed =>
    intro hnone hahead
    rw [completeEntry_base, aheadReady_true_iff.mpr hahead, hnone]
    rfl
  case notFixed =>
    intro hnone hfirst hahead
    have notAhead : aheadReady true (s.afterEdge c).q i = false := by
      rw [Bool.eq_false_iff, Ne, aheadReady_true_iff]
      rintro (hzero | ⟨z, hz, hready⟩)
      · exact hfirst hzero
      · exact Bool.false_ne_true ((hahead z hz).symm.trans hready)
    rw [completeEntry_base, notAhead, hnone]
    rfl

/-! ### The entry accepted at an edge -/

/-- The last entry after an edge that accepts is the new one, completed. -/
theorem State.afterEdge_q_getLast? {s : State} {c : HostCycle} (h : (c.reqValid && s.canAccept c) = true) :
    ∃ a n, (s.afterEdge c).q.getLast? =
      some (completeEntry s.params s.edgeNo a n ⟨gfmul c.reqA c.reqB, false, s.edgeNo, none⟩) := by
  have last : (s.queueToComplete c)[(s.keptQueue c).length]? = some ⟨gfmul c.reqA c.reqB, false, s.edgeNo, none⟩ := by
    rw [State.queueToComplete, h]
    exact List.getElem?_concat_length
  have length : (s.afterEdge c).q.length = (s.keptQueue c).length + 1 := by
    simp [State.afterEdge, State.queueToComplete, h]
  rw [List.getLast?_eq_getElem?, length, Nat.add_sub_cancel, State.afterEdge_q_getElem? last]
  exact ⟨_, _, rfl⟩

/-- Settles O24: exec is the edge with the request on it, which is accepted, and the new entry can be ready at its own
edge only if edge t + `LAT_MIN` is that edge. -/
theorem gfmulAcceptAppendsProduct : Obligations.GfmulAcceptAppendsProduct := by
  intro s c a0 a1 b0 b1 h haccept
  have accepts : ((c.withRequest (elem a0 a1) (elem b0 b1)).reqValid &&
      s.canAccept (c.withRequest (elem a0 a1) (elem b0 b1))) = true := by
    rw [State.canAccept_withRequest, haccept]
    rfl
  have room : s.q.length ≤ s.params.depth :=
    Nat.le_of_lt (of_decide_eq_true (Bool.and_eq_true_iff.mp haccept).1)
  refine ⟨_, h.exec_gfmul_eq_afterEdge a0 a1 b0 b1, ?results, ?record, rfl, ?newEntry, h.phase, rfl,
    State.afterEdge_q_length_le h.phase h.rst room⟩
  case results =>
    rw [State.afterEdge_q_map_r, accepts]
    rfl
  case record =>
    rw [State.afterEdge, accepts]
    rfl
  case newEntry =>
    intro x hx
    obtain ⟨a, n, hlast⟩ := State.afterEdge_q_getLast? accepts
    obtain rfl := Option.some.inj (hlast.symm.trans hx)
    refine ⟨rfl, fun hready => ?_⟩
    have hmay := ((completeEntry_ready_iff rfl).mp hready).1
    exact Nat.le_zero.mp ((add_le_iff_nonpos_right _).mp hmay)

end Sys2Proof.Machine
end

section
/-! The operands of an edge (42_gfmul.md R123): they reach the new result and the record of accepts, and no timing
(70_reset_and_hazards.md R181). -/

namespace Sys2Proof.Machine

/-! ### Completing does not see results -/

theorem sameTiming_iff_map_eq {q q' : List Entry} :
    sameTiming q q' ↔ q.map (fun e => (e.ready, e.t, e.base)) = q'.map (fun e => (e.ready, e.t, e.base)) := by
  induction q generalizing q' with
  | nil => cases q' <;> simp [sameTiming]
  | cons x xs ih => cases q' <;> simp [sameTiming, ih, and_assoc]

theorem completeFrom_sameTiming {q q' : List Entry} (h : sameTiming q q') (p : Params) (e : Nat) (ns : List Nat) (i : Nat)
    (a : Bool) : sameTiming (completeFrom p e ns i a q) (completeFrom p e ns i a q') := by
  induction q generalizing q' i a with
  | nil =>
    cases q' with
    | nil => trivial
    | cons y ys => exact h.elim
  | cons x xs ih =>
    cases q' with
    | nil => exact h.elim
    | cons y ys =>
      obtain ⟨hready, ht, hbase, hrest⟩ := h
      have sameBase : (completeEntry p e a (ns.contains i) x).base = (completeEntry p e a (ns.contains i) y).base := by
        rw [completeEntry_base, completeEntry_base, hbase]
      have sameReady : (completeEntry p e a (ns.contains i) x).ready = (completeEntry p e a (ns.contains i) y).ready := by
        simp only [completeEntry, mayReady, hready, ht, hbase]
      rw [completeFrom_cons, completeFrom_cons, ← sameReady]
      exact ⟨sameReady, ht, sameBase, ih hrest (i + 1) _⟩

/-! ### The same cycle with other operands -/

/-- The cycle c with other operands on the request channel, presented or not. -/
def HostCycle.withOperands (c : HostCycle) (a b : Elem) : HostCycle := { c with reqA := a, reqB := b }

/-- The state s with the cycle c as its coming event, and then those of evs. -/
def State.expecting (s : State) (c : HostCycle) (evs : List HostEvent) : State := { s with host := .edge c :: evs }

theorem RunningEdge.expecting {s : State} {c : HostCycle} (hs : s.phase = .running) (hrst : c.rst = false)
    (evs : List HostEvent) : RunningEdge (s.expecting c evs) c :=
  ⟨hs, State.nextEvent_cons rfl, hrst⟩

section
variable (s : State) (c : HostCycle) (evs : List HostEvent) (a b : Elem)

theorem State.nextDraw_withOperands :
    (s.expecting (c.withOperands a b) evs).nextDraw (c.withOperands a b) = s.nextDraw c :=
  State.nextDraw_congr rfl rfl rfl rfl

theorem State.canAccept_withOperands :
    (s.expecting (c.withOperands a b) evs).canAccept (c.withOperands a b) = s.canAccept c := by
  rw [State.canAccept, State.nextDraw_withOperands]
  rfl

theorem State.queueToComplete_withOperands :
    (s.expecting (c.withOperands a b) evs).queueToComplete (c.withOperands a b) =
      s.keptQueue c ++ (if c.reqValid && s.canAccept c then [⟨gfmul a b, false, s.edgeNo, none⟩] else []) := by
  rw [State.queueToComplete, State.canAccept_withOperands]
  rfl

theorem State.afterEdge_withOperands_q :
    ((s.expecting (c.withOperands a b) evs).afterEdge (c.withOperands a b)).q =
      completeFrom s.params s.edgeNo (s.nextDraw c).completes 0 true
        (s.keptQueue c ++ (if c.reqValid && s.canAccept c then [⟨gfmul a b, false, s.edgeNo, none⟩] else [])) := by
  rw [State.afterEdge, State.nextDraw_withOperands, State.queueToComplete_withOperands]
  rfl

theorem State.afterEdge_withOperands_accepted :
    ((s.expecting (c.withOperands a b) evs).afterEdge (c.withOperands a b)).accepted =
      s.accepted ++ (if c.reqValid && s.canAccept c then [(a, b)] else []) := by
  rw [State.afterEdge, State.canAccept_withOperands]
  rfl

variable {s c evs}

/-- The operands of an edge reach no field but the queue and the record of accepts. -/
theorem State.afterEdge_withOperands_frame (hhost : s.host = .edge c :: evs) :
    { s.afterEdge c with
      q := ((s.expecting (c.withOperands a b) evs).afterEdge (c.withOperands a b)).q
      accepted := ((s.expecting (c.withOperands a b) evs).afterEdge (c.withOperands a b)).accepted } =
      (s.expecting (c.withOperands a b) evs).afterEdge (c.withOperands a b) := by
  rw [State.mk.injEq]
  refine ⟨rfl, rfl, rfl, rfl, rfl, rfl, ?_, rfl⟩
  rw [State.afterEdge, hhost]
  rfl

end

/-- Settles O26: both steps are edges with the same draws, so they differ in the new entry and its record alone, and
completing does not see the result of an entry. -/
theorem operandsAreThoseSampled : Obligations.OperandsAreThoseSampled := by
  intro s c a b evs hhost hs hrst hvalid
  have edge : RunningEdge s c := ⟨hs, State.nextEvent_cons hhost, hrst⟩
  have edge' : RunningEdge (s.expecting (c.withOperands a b) evs) (c.withOperands a b) :=
    RunningEdge.expecting (c := c.withOperands a b) hs hrst evs
  have frame := State.afterEdge_withOperands_frame a b hhost
  refine ⟨_, _, edge.step_eq_afterEdge, edge'.step_eq_afterEdge, fun hwait => ?notAccepted, fun haccept => ?accepted⟩
  case notAccepted =>
    have noBeat : (c.reqValid && s.canAccept c) = false := by rw [hwait, Bool.and_false]
    have sameQueue : ((s.expecting (c.withOperands a b) evs).afterEdge (c.withOperands a b)).q = (s.afterEdge c).q := by
      rw [State.afterEdge_withOperands_q, State.afterEdge, State.queueToComplete, noBeat]
      simp only [Bool.false_eq_true, if_false]
    have sameRecord : ((s.expecting (c.withOperands a b) evs).afterEdge (c.withOperands a b)).accepted =
        (s.afterEdge c).accepted := by
      rw [State.afterEdge_withOperands_accepted, State.afterEdge, noBeat]
      simp only [Bool.false_eq_true, if_false]
    rw [sameQueue, sameRecord] at frame
    exact frame.symm
  case accepted =>
    have beat : (c.reqValid && s.canAccept c) = true := by rw [hvalid, haccept]; rfl
    have beat' : ((c.withOperands a b).reqValid &&
        (s.expecting (c.withOperands a b) evs).canAccept (c.withOperands a b)) = true := by
      rw [State.canAccept_withOperands]
      exact beat
    refine ⟨?_, ?_, ?_, ?_, ?timing, frame⟩
    · rw [State.afterEdge, beat]
      rfl
    · rw [State.afterEdge_withOperands_accepted, beat]
      rfl
    · rw [State.afterEdge_q_map_r, beat]
      rfl
    · rw [State.afterEdge_q_map_r, beat']
      rfl
    · rw [State.afterEdge_withOperands_q, State.afterEdge, State.queueToComplete, beat]
      exact sameTiming_iff_map_eq.mp
        (completeFrom_sameTiming (sameTiming_iff_map_eq.mpr (by simp)) _ _ _ _ _)

end Sys2Proof.Machine
end

section
/-! The one fault (60_exceptions.md R152; log 6): when an edge raises it, and so when a step does. -/

namespace Sys2Proof.Machine

/-- Before the first reset the beat that faults is one of 30_encoding.md R60 by the outputs the host sees. -/
theorem unresetBeat_iff_outputs {s : State} (hs : s.phase = .unreset) (c : HostCycle) (d : Draw) :
    unresetBeat c d = true ↔
      c.rst = false ∧ ((c.reqValid = true ∧ (s.outputs c.rst d).reqReady = true) ∨
        (c.rspReady = true ∧ (s.outputs c.rst d).rspValid = true)) := by
  simp [State.outputs_unreset hs, unresetBeat]

theorem State.edge_eq_fault_iff {s : State} {c : HostCycle} {f : Fault} :
    s.edge c = .fault f ↔
      f = .usedBeforeReset ∧ s.phase = .unreset ∧ (c.readsR = true ∨ unresetBeat c (s.nextDraw c) = true) := by
  cases hs : s.phase with
  | running =>
    rw [State.edge_running hs]
    exact ⟨nofun, fun ⟨_, hs', _⟩ => nomatch hs'⟩
  | unreset =>
    rw [State.edge, State.edgeWith_unreset hs, ← Bool.or_eq_true]
    split
    next huse => simp [huse]
    next hnoUse => simp [hnoUse]

theorem step_eq_fault_iff {s : State} {f : Fault} :
    step s = .fault f ↔ ∃ c, s.nextEvent = .edge c ∧ s.edge c = .fault f := by
  cases he : s.nextEvent with
  | powerLoss =>
    rw [step_powerLoss he]
    exact ⟨nofun, fun ⟨_, he', _⟩ => nomatch he'⟩
  | edge c => simp [step_edge he]

/-- Settles O34: only an edge faults, and it does just before the first reset, by a use of `rsp_r` or by a beat, which the
outputs of that phase show. -/
theorem faultIsUseBeforeReset : Obligations.FaultIsUseBeforeReset := by
  intro s f
  rw [step_eq_fault_iff]
  constructor
  · rintro ⟨c, he, hfault⟩
    obtain ⟨hf, hs, huse⟩ := State.edge_eq_fault_iff.mp hfault
    exact ⟨hf, hs, c, he, huse.imp_right (unresetBeat_iff_outputs hs c _).mp⟩
  · rintro ⟨hf, hs, c, he, huse⟩
    exact ⟨c, he, State.edge_eq_fault_iff.mpr ⟨hf, hs, huse.imp_right (unresetBeat_iff_outputs hs c _).mpr⟩⟩

end Sys2Proof.Machine
end

section
/-! Timing does not see operands (70_reset_and_hazards.md R181): each thing an edge does keeps `SameControl`, so every step
does. -/

namespace Sys2Proof.Machine

/-! ### Queues that differ in results alone -/

theorem sameTiming.length_eq {q q' : List Entry} (h : sameTiming q q') : q.length = q'.length := by
  simpa using congrArg List.length (sameTiming_iff_map_eq.mp h)

theorem sameTiming.headReady_eq {q q' : List Entry} (h : sameTiming q q') : headReady q = headReady q' := by
  match q, q', h with
  | [], [], _ => rfl
  | _ :: _, _ :: _, h => exact h.1

theorem sameTiming.tail {q q' : List Entry} (h : sameTiming q q') : sameTiming q.tail q'.tail := by
  match q, q', h with
  | [], [], _ => trivial
  | _ :: _, _ :: _, ⟨_, _, _, hrest⟩ => exact hrest

theorem sameTiming.append {q q' p p' : List Entry} (hq : sameTiming q q') (hp : sameTiming p p') :
    sameTiming (q ++ p) (q' ++ p') := by
  rw [sameTiming_iff_map_eq] at *
  rw [List.map_append, List.map_append, hq, hp]

/-! ### What timing may see of a cycle and of an event -/

theorem HostCycle.seen_eq_iff {c c' : HostCycle} :
    c.seen = c'.seen ↔ c.rst = c'.rst ∧ c.reqValid = c'.reqValid ∧ c.rspReady = c'.rspReady := by
  rw [HostCycle.seen, HostCycle.seen, Seen.edge.injEq]

theorem unresetBeat_congr {c c' : HostCycle} (hc : c.seen = c'.seen) (d : Draw) : unresetBeat c d = unresetBeat c' d := by
  obtain ⟨hrst, hvalid, htake⟩ := HostCycle.seen_eq_iff.mp hc
  rw [unresetBeat, unresetBeat, hrst, hvalid, htake]

/-- Events with the same control are two losses of power, or two edges. -/
theorem HostEvent.control_eq_cases {ev ev' : HostEvent} (h : ev.control = ev'.control) :
    (ev = .powerLoss ∧ ev' = .powerLoss) ∨
      ∃ c c', ev = .edge c ∧ ev' = .edge c' ∧ c.seen = c'.seen ∧ c.readsR = c'.readsR := by
  obtain ⟨hseen, hreads⟩ := Prod.ext_iff.mp h
  cases ev with
  | powerLoss =>
    cases ev' with
    | powerLoss => exact .inl ⟨rfl, rfl⟩
    | edge c' => cases hseen
  | edge c =>
    cases ev' with
    | powerLoss => cases hseen
    | edge c' => exact .inr ⟨c, c', rfl, rfl, hseen, hreads⟩

/-! ### States that differ in operands and results alone -/

section
variable {s s' : State} {c c' : HostCycle}

theorem SameControl.nextDraw_eq (h : SameControl s s') (hc : c.seen = c'.seen) : s.nextDraw c = s'.nextDraw c' :=
  State.nextDraw_congr h.params h.hist h.draws hc

theorem SameControl.edgeNo_eq (h : SameControl s s') : s.edgeNo = s'.edgeNo := congrArg List.length h.hist

/-- Both blocks drive the same `req_ready` and `rsp_valid`; `rsp_r` may differ. -/
theorem SameControl.handshake_eq (h : SameControl s s') (rst : Bool) (d : Draw) :
    (s.outputs rst d).reqReady = (s'.outputs rst d).reqReady ∧
      (s.outputs rst d).rspValid = (s'.outputs rst d).rspValid := by
  cases hs : s.phase with
  | unreset =>
    rw [State.outputs_unreset hs, State.outputs_unreset (h.phase ▸ hs)]
    exact ⟨rfl, rfl⟩
  | running =>
    have hs' : s'.phase = .running := h.phase ▸ hs
    cases rst with
    | true =>
      rw [State.outputs_running_rst hs, State.outputs_running_rst hs']
      exact ⟨rfl, rfl⟩
    | false =>
      rw [State.outputs_running hs, State.outputs_running hs', h.queue.length_eq, h.queue.headReady_eq, h.params]
      exact ⟨rfl, rfl⟩

theorem SameControl.canAccept_eq (h : SameControl s s') (hc : c.seen = c'.seen) : s.canAccept c = s'.canAccept c' := by
  rw [State.canAccept, State.canAccept, h.queue.length_eq, h.params, h.nextDraw_eq hc]

theorem SameControl.keptQueue_sameTiming (h : SameControl s s') (hc : c.seen = c'.seen) :
    sameTiming (s.keptQueue c) (s'.keptQueue c') := by
  have sameDeliver : s.delivers c = s'.delivers c' := by
    rw [State.delivers, State.delivers, h.queue.headReady_eq, (HostCycle.seen_eq_iff.mp hc).2.2]
  rw [State.keptQueue, State.keptQueue, sameDeliver]
  split
  · exact h.queue.tail
  · exact h.queue

/-- A new entry has its result from the operands, and nothing else. -/
theorem SameControl.queueToComplete_sameTiming (h : SameControl s s') (hc : c.seen = c'.seen) :
    sameTiming (s.queueToComplete c) (s'.queueToComplete c') := by
  rw [State.queueToComplete, State.queueToComplete, (HostCycle.seen_eq_iff.mp hc).2.1, h.canAccept_eq hc, h.edgeNo_eq]
  refine (h.keptQueue_sameTiming hc).append ?_
  split
  · exact ⟨rfl, rfl, rfl, trivial⟩
  · trivial

theorem SameControl.afterEdge (h : SameControl s s') (hc : c.seen = c'.seen) :
    SameControl (s.afterEdge c) (s'.afterEdge c') where
  params := h.params
  phase := h.phase
  queue := by
    rw [State.afterEdge, State.afterEdge, h.params, h.edgeNo_eq, h.nextDraw_eq hc]
    exact completeFrom_sameTiming (h.queueToComplete_sameTiming hc) _ _ _ _ _
  hist := congrArg₂ List.cons hc h.hist
  draws := congrArg List.tail h.draws

theorem SameControl.consume (h : SameControl s s') (hc : c.seen = c'.seen) :
    SameControl (s.consume c) (s'.consume c') :=
  ⟨h.params, h.phase, h.queue, congrArg₂ List.cons hc h.hist, congrArg List.tail h.draws⟩

theorem SameControl.doReset (h : SameControl s s') : SameControl s.doReset s'.doReset :=
  ⟨h.params, rfl, trivial, h.hist, h.draws⟩

theorem SameControl.losePower (h : SameControl s s') : SameControl s.losePower s'.losePower :=
  ⟨h.params, rfl, trivial, congrArg (Seen.powerLoss :: ·) h.hist, h.draws⟩

/-- Whether an edge faults does not depend on operands or results, and if it does not they stay the only difference. -/
theorem SameControl.edge (h : SameControl s s') (hc : c.seen = c'.seen) (hreads : c.readsR = c'.readsR) :
    (∃ f, s.edge c = .fault f ∧ s'.edge c' = .fault f) ∨
      ∃ t t', s.edge c = .next t ∧ s'.edge c' = .next t' ∧ SameControl t t' := by
  have hrst : c.rst = c'.rst := (HostCycle.seen_eq_iff.mp hc).1
  cases hs : s.phase with
  | running =>
    have hs' : s'.phase = .running := h.phase ▸ hs
    cases hr : c.rst with
    | true =>
      exact .inr ⟨_, _, State.edge_rst hr (by simp [hs]), State.edge_rst (hrst ▸ hr) (by simp [hs']),
        h.doReset.consume hc⟩
    | false =>
      exact .inr ⟨_, _, State.edge_eq_afterEdge hs hr, State.edge_eq_afterEdge hs' (hrst ▸ hr), h.afterEdge hc⟩
  | unreset =>
    rw [State.edge, State.edge, State.edgeWith_unreset hs, State.edgeWith_unreset (h.phase ▸ hs), hreads,
      h.nextDraw_eq hc, unresetBeat_congr hc, hrst]
    split
    next => exact .inl ⟨_, rfl, rfl⟩
    next =>
      refine .inr ⟨_, _, rfl, rfl, ?_⟩
      split
      · exact h.doReset.consume hc
      · exact h.consume hc

end

/-- Settles O44: the handshake sees the queue by its length and its head's ready bit alone, and the step is a loss of power
for both blocks or an edge with the same control inputs for both. -/
theorem constantTime : Obligations.ConstantTime := by
  intro s s' h hcontrol
  refine ⟨fun c c' hc => ?handshake, ?step⟩
  case handshake =>
    rw [h.nextDraw_eq hc, (HostCycle.seen_eq_iff.mp hc).1]
    exact h.handshake_eq _ _
  case step =>
    obtain ⟨he, he'⟩ | ⟨c, c', he, he', hc, hreads⟩ := HostEvent.control_eq_cases hcontrol
    · exact .inr ⟨_, _, step_powerLoss he, step_powerLoss he', h.losePower⟩
    · rw [step_edge he, step_edge he']
      exact h.edge hc hreads

end Sys2Proof.Machine
end

section
/-! The block before its first reset (70_reset_and_hazards.md R171, R172): its beats, its quiet edges and its reset edge. -/

namespace Sys2Proof.Machine

/-- Before the first reset an edge with `rst` = 0, no beat and no use of `rsp_r` is spent, and nothing else happens. -/
theorem State.edge_unreset_of_no_beat {s : State} {c : HostCycle} (hs : s.phase = .unreset) (hrst : c.rst = false)
    (hreads : c.readsR = false) (hbeat : unresetBeat c (s.nextDraw c) = false) : s.edge c = .next (s.consume c) := by
  rw [State.edge, State.edgeWith_unreset hs, hreads, hbeat, hrst]
  rfl

/-- Settles O35: the outputs by the draw that shows them, the fault by the condition for it, and the two other edges by
their equations. -/
theorem unresetEdge : Obligations.UnresetEdge := by
  refine ⟨outputsRule.1, fun s c hs he hrst => ⟨fun hbeat => ?fault, fun hnoReq hnoRsp hreads => ?quiet⟩,
    fun s c _ he hrst hreads => ⟨_, step_rst he hrst fun _ => hreads, rfl, rfl⟩⟩
  case fault =>
    rw [Bool.and_eq_true, Bool.and_eq_true] at hbeat
    have beat := (unresetBeat_iff_outputs hs c _).mpr ⟨hrst, hbeat⟩
    exact (step_edge he).trans (State.edge_eq_fault_iff.mpr ⟨rfl, hs, .inr beat⟩)
  case quiet =>
    have noBeat : unresetBeat c (s.nextDraw c) = false := by
      rw [Bool.eq_false_iff, Ne, unresetBeat_iff_outputs hs, ← Bool.and_eq_true, ← Bool.and_eq_true, hnoReq, hnoRsp]
      simp
    exact ⟨_, (step_edge he).trans (State.edge_unreset_of_no_beat hs hrst hreads noBeat), hs, rfl, rfl, rfl, rfl⟩

end Sys2Proof.Machine
end

section
/-! REDUCE and GFMUL on polynomials (41_reduce.md section 1, 42_gfmul.md section 1): the remainder modulo P, and the
linearity of REDUCE. -/

namespace Sys2Proof.Machine

open Polynomial

/-! ### The four words of a vector give it back -/

@[simp] theorem wideVec_wideOfVec (v : BitVec 256) : wideVec (wideOfVec v) = v := by
  have word (start i : Nat) : (v.extractLsb' start 64).getLsbD i = (decide (i < 64) && v.getLsbD (start + i)) :=
    BitVec.getLsbD_extractLsb' ..
  apply BitVec.eq_of_getLsbD_eq
  intro i hi
  rw [getLsbD_wideVec, wideOfVec]
  split
  · next h => rw [word, decide_eq_true h, Nat.zero_add, Bool.true_and]
  · split
    · next h => rw [word, decide_eq_true (by omega), Nat.add_sub_of_le (by omega), Bool.true_and]
    · split <;> rw [word, decide_eq_true (by omega), Nat.add_sub_of_le (by omega), Bool.true_and]

/-! ### The remainder modulo P -/

theorem monic_gcmPoly : gcmPoly.Monic := by
  rw [gcmPoly_eq]
  monicity!

/-- What is left beside a multiple of f, and of lower degree, is the remainder. It is stated for any f, since Lean unfolds
the powers of x in P itself when it compares two of its ring structures. -/
theorem modByMonic_eq_of_add_mul_eq {f p q r : (ZMod 2)[X]} (hf : f.Monic) (h : r + f * q = p)
    (small : r.degree < f.degree) : p %ₘ f = r :=
  (div_modByMonic_unique q r hf ⟨h, small⟩).2

/-- The result of REDUCE is congruent to its input modulo P and of lower degree than P. -/
theorem polyOf_reduce_eq_modByMonic (x : WideProduct) : polyOf (reduce x) = polyOf (wideVec x) %ₘ gcmPoly := by
  have two : (2 : (ZMod 2)[X]) = 0 := CharTwo.two_eq_zero
  have divided : polyOf (reduce x) + gcmPoly * polyOf (foldTerm x) = polyOf (wideVec x) := by
    rw [polyOf_reduce]
    linear_combination gcmPoly * polyOf (foldTerm x) * two
  have small : (polyOf (reduce x)).degree < gcmPoly.degree := by
    rw [degree_gcmPoly]
    exact degree_polyOf_lt (reduce x)
  exact (modByMonic_eq_of_add_mul_eq monic_gcmPoly divided small).symm

/-- Settles O15: the remainder is by the multiple of P that REDUCE subtracts, and a class modulo P holds one element. -/
theorem reduceExactModP : Obligations.ReduceExactModP := by
  intro x
  refine ⟨polyOf_reduce_eq_modByMonic x, fun r hr => residue_injective ?_⟩
  rw [residue_reduce, residue]
  -- for any modulus, lest Lean unfold the powers of x in P
  generalize gcmPoly = f at hr ⊢
  exact AdjoinRoot.mk_eq_mk.mpr hr

theorem gfmul_twoPow_127_self :
    gfmul (BitVec.twoPow 128 127) (BitVec.twoPow 128 127) = 0xc0000000000000000000000000001067 := by
  rw [gfmul, clmul128_twoPow_127_self]
  decide +kernel

theorem gfmul_allOnes_self :
    gfmul (BitVec.allOnes 128) (BitVec.allOnes 128) = 0x5555555555555555555555555555402f := by
  rw [gfmul, clmul128_allOnes_self]
  decide +kernel

theorem gfmul_twoPow_64_self : gfmul (BitVec.twoPow 128 64) (BitVec.twoPow 128 64) = 0x87 := by
  rw [gfmul, clmul128_twoPow_64_self]
  decide +kernel

theorem gfmul_two_twoPow_127 : gfmul 0x2 (BitVec.twoPow 128 127) = 0x87 := by
  rw [← gfmulBy_eq_gfmul .iterative]
  decide +kernel

/-- Settles O17: CLMUL128 is the product of the polynomials and REDUCE its remainder; ONE and ZERO by the field laws, and
the corner values by evaluation. -/
theorem gfmulIsProductModP : Obligations.GfmulIsProductModP := by
  obtain ⟨-, -, identity, absorbing, -⟩ := gfmulFieldLaws
  refine ⟨fun a b => ?_, gfmulBy_eq_gfmul, fun a => ⟨absorbing a, identity a⟩, gfmul_two_twoPow_127,
    gfmul_twoPow_127_self, gfmul_allOnes_self, gfmul_twoPow_64_self⟩
  rw [gfmul, polyOf_reduce_eq_modByMonic, polyOf_clmul128]

/-- Settles O19: evaluated with the iterative backend, which computes the same GFMUL. -/
theorem gcmKnownAnswer : Obligations.GcmKnownAnswer := by
  unfold Obligations.GcmKnownAnswer
  rw [← gfmulBy_eq_gfmul .iterative]
  decide +kernel

/-! ### REDUCE is linear, and the shift of a pair -/

/-- Settles O16: REDUCE keeps the class modulo P of its input, and the class of a XOR is the sum of the classes. -/
theorem reduceLinear : Obligations.ReduceLinear := by
  refine ⟨fun v w => residue_injective ?_, reduce_high_zero 0 0⟩
  simp only [residue_xor, residue_reduce, wideVec_wideOfVec, polyOf_xor, map_add]

/-- Settles O2: bit by bit, in the low and in the high word. -/
theorem pairShiftIsTruncatingShift : Obligations.PairShiftIsTruncatingShift :=
  fun _ t _ hn => shlPair_eq_shiftLeft hn t

end Sys2Proof.Machine
end

section
/-! The product as a loop of shifts and XORs (40_clmul.md sections 1 and 2). -/

namespace Sys2Proof.Machine

open Polynomial

/-- The loop that XORs `a`, shifted by i, for each bit i < k of `b` that is 1, in vectors of width w. -/
def shiftLoop (w : Nat) {m n : Nat} (a : BitVec m) (b : BitVec n) (k : Nat) : BitVec w :=
  (List.range k).foldl (fun acc i => if b.getLsbD i then acc ^^^ (a.setWidth w <<< i) else acc) 0

theorem shiftLoop_succ (w : Nat) {m n : Nat} (a : BitVec m) (b : BitVec n) (k : Nat) :
    shiftLoop w a b (k + 1) =
      if b.getLsbD k then shiftLoop w a b k ^^^ (a.setWidth w <<< k) else shiftLoop w a b k := by
  simp only [shiftLoop, List.range_succ, List.foldl_append, List.foldl_cons, List.foldl_nil]

/-- A shift within the width of the result loses no bit, and multiplies by a power of x. -/
theorem polyOf_setWidth_shiftLeft {m w k : Nat} (h : m + k ≤ w) (a : BitVec m) :
    polyOf (a.setWidth w <<< k) = X ^ k * polyOf a := by
  have nothingLost : a.setWidth w >>> (w - k) = 0#w := by
    apply BitVec.eq_of_getLsbD_eq
    intro i _
    rw [BitVec.getLsbD_ushiftRight, BitVec.getLsbD_setWidth, BitVec.getLsbD_of_ge a _ (by omega)]
    simp
  have shifted := polyOf_shiftLeft_add (Nat.le_of_add_left_le h) (a.setWidth w)
  rwa [nothingLost, polyOf_zero, mul_zero, add_zero, polyOf_setWidth (Nat.le_of_add_right_le h)] at shifted

/-- The loop adds up the multiples of the polynomial of `a` by x^i. -/
theorem polyOf_shiftLoop {m n w k : Nat} (h : m + k ≤ w) (a : BitVec m) (b : BitVec n) :
    polyOf (shiftLoop w a b k) = polyOf a * ∑ i ∈ Finset.range k, if b.getLsbD i = true then X ^ i else 0 := by
  induction k with
  | zero => simp [shiftLoop]
  | succ k ih =>
    rw [shiftLoop_succ, Finset.sum_range_succ, mul_add, ← ih (by omega)]
    cases b.getLsbD k with
    | false => simp
    | true => simp [polyOf_setWidth_shiftLeft (Nat.le_of_succ_le h), mul_comm]

/-- Settles O12: the loop and the Karatsuba product are both the product of the polynomials, which fix a vector. -/
theorem productIsSchoolbook : Obligations.ProductIsSchoolbook := by
  intro impl a b
  rw [clmul128By_eq_clmul128, clmul128By_eq_clmul128, clmul128By_eq_clmul128]
  refine ⟨polyOf_injective 256 ?_, polyOf_clmul128 a b, rfl⟩
  exact (polyOf_clmul128 a b).trans (polyOf_shiftLoop (k := 128) (by decide) a b).symm

theorem clmulAcc_eq_shiftLoop (u v : Word) (k : Nat) : clmulAcc u v k = shiftLoop 128 u v k := by
  induction k with
  | zero => rfl
  | succ k ih => rw [clmulAcc, shiftLoop_succ, ih]

/-- Settles O10: the accumulator is the loop, iteration by iteration; the rest by its equality with CLMUL64. -/
theorem iterativeEqualsPrimitive : Obligations.IterativeEqualsPrimitive := by
  refine fun u v => ⟨clmulAcc_eq_shiftLoop u v 64, clmul64Iter_eq_clmul64 u v, ?commutes, ?value⟩
  case commutes => rw [clmul64Iter_eq_clmul64, clmul64_comm, clmul64Iter_eq_clmul64]
  case value => decide +kernel

end Sys2Proof.Machine
end

section
/-! Decode and encode agree (30_encoding.md sections 2 and 3), over words and over bytes. -/

namespace Sys2Proof.Machine

/-! ### Words -/

/-- The encoder puts the fields where a vector has its words. -/
theorem encode_gfmul (a0 a1 b0 b1 : Word) : encode (.gfmul a0 a1 b0 b1) = wideVec ⟨a0, a1, b0, b1⟩ := rfl

theorem decodeReq_encode (i : Instr) : decodeReq (encode i) = i := by
  cases i with
  | gfmul a0 a1 b0 b1 =>
    have words := wideOfVec_wideVec ⟨a0, a1, b0, b1⟩
    rw [wideOfVec, WideProduct.mk.injEq] at words
    rw [encode_gfmul, decodeReq, Instr.gfmul.injEq]
    exact words

theorem encode_decodeReq (req : BitVec 256) : encode (decodeReq req) = req := wideVec_wideOfVec req

/-! ### Bytes -/

theorem natOfBytes_lt (bytes : List Byte) : natOfBytes bytes < 256 ^ bytes.length := by
  induction bytes with
  | nil => exact Nat.one_pos
  | cons b rest ih =>
    have hb : b.toNat < 256 := b.isLt
    rw [natOfBytes, List.length_cons, Nat.pow_succ']
    omega

theorem bytesOfNat_natOfBytes (bytes : List Byte) : bytesOfNat bytes.length (natOfBytes bytes) = bytes := by
  induction bytes with
  | nil => rfl
  | cons b rest ih =>
    have hb : b.toNat < 256 := b.isLt
    have low : BitVec.ofNat 8 (b.toNat + 256 * natOfBytes rest) = b := by
      apply BitVec.eq_of_toNat_eq
      rw [BitVec.toNat_ofNat]
      omega
    have high : (b.toNat + 256 * natOfBytes rest) / 256 = natOfBytes rest := by omega
    rw [List.length_cons, natOfBytes, bytesOfNat, low, high, ih]

theorem decode_of_length_lt {bytes : List Byte} (h : bytes.length < beatBytes) : decode bytes = .error .shortBeat := by
  rw [decode, if_pos h]

theorem decode_of_length_gt {bytes : List Byte} (h : beatBytes < bytes.length) : decode bytes = .error .longBeat := by
  rw [decode, if_neg (Nat.lt_asymm h), if_pos h]

/-- Bytes decode just when there are 32 of them, and then to what their word decodes to. -/
theorem decode_eq_ok_iff {bytes : List Byte} {i : Instr} :
    decode bytes = .ok i ↔ bytes.length = beatBytes ∧ decodeReq (BitVec.ofNat 256 (natOfBytes bytes)) = i := by
  rcases Nat.lt_trichotomy bytes.length beatBytes with short | beat | long
  · simp [decode_of_length_lt short, Nat.ne_of_lt short]
  · simp [decode_of_length_eq beat, beat]
  · simp [decode_of_length_gt long, Nat.ne_of_gt long]

theorem beat_words : 256 ^ beatBytes = 2 ^ 256 := by decide

theorem decode_encodeBytes (i : Instr) : decode (encodeBytes i) = .ok i := by
  have sameWord : BitVec.ofNat 256 (natOfBytes (encodeBytes i)) = encode i := by
    apply BitVec.eq_of_toNat_eq
    rw [encodeBytes, natOfBytes_bytesOfNat, beat_words, BitVec.toNat_ofNat, Nat.mod_mod, Nat.mod_eq_of_lt (encode i).isLt]
  rw [decode_eq_ok_iff, sameWord]
  exact ⟨length_bytesOfNat _ _, decodeReq_encode i⟩

theorem encodeBytes_of_decode {bytes : List Byte} {i : Instr} (h : decode bytes = .ok i) : encodeBytes i = bytes := by
  obtain ⟨length, rfl⟩ := decode_eq_ok_iff.mp h
  have inWord : natOfBytes bytes < 2 ^ 256 := by
    rw [← beat_words, ← length]
    exact natOfBytes_lt bytes
  rw [encodeBytes, encode_decodeReq, BitVec.toNat_ofNat, Nat.mod_eq_of_lt inWord, ← length, bytesOfNat_natOfBytes]

/-- Settles O6: over words, the fields are the words of a vector; over bytes, 32 bytes and a 256-bit number write each
other. -/
theorem encodeDecodeRoundTrip : Obligations.EncodeDecodeRoundTrip :=
  ⟨fun i _ => ⟨decodeReq_encode i, decode_encodeBytes i⟩, encode_decodeReq, fun _ _ => encodeBytes_of_decode⟩

/-- Settles O5: the three lengths by their equations, and well-formed bytes are those of the one length that decodes. -/
theorem beatsAreThirtyTwoBytes : Obligations.BeatsAreThirtyTwoBytes := by
  refine ⟨fun bytes h => ⟨_, _, _, _, decode_of_length_eq h⟩, fun bytes => decode_of_length_lt,
    fun bytes => decode_of_length_gt, fun bytes => ?_⟩
  simp [wfBeat, decode_eq_ok_iff]

/-- Settles O7: a table word of 256 bits decodes as the request word it is. -/
theorem sampleWordsDecode : Obligations.SampleWordsDecode := by
  unfold Obligations.SampleWordsDecode
  simp only [decodeTableWord_beat]
  decide +kernel

end Sys2Proof.Machine
end

section
/-! The GCM 16-byte form (20_memory.md section 2): its bit map, and its big-endian integer. -/

namespace Sys2Proof.Machine

/-! ### The bit map and its inverse -/

/-- Bit 8j+k of the internal form is bit 7-k of byte j (20_memory.md R41). -/
theorem getLsbD_ofGcm (b : Vector Byte 16) {j : Nat} (hj : j < 16) {k : Nat} (hk : k < 8) :
    (ofGcm b).getLsbD (8 * j + k) = b[j].getLsbD (7 - k) := by
  have byte : (8 * j + k) / 8 = j := by omega
  have bit : (8 * j + k) % 8 = k := by omega
  have inside : 8 * j + k < 128 := by omega
  rw [ofGcm, getLsbD_ofBits, decide_eq_true inside, Bool.true_and, byte, bit, Vector.getElem?_eq_getElem hj,
    Option.getD_some]

theorem getLsbD_toGcm (v : Elem) {j : Nat} (hj : j < 16) {m : Nat} (hm : m < 8) :
    (toGcm v)[j].getLsbD m = v.getLsbD (8 * j + (7 - m)) := by
  rw [toGcm, Vector.getElem_ofFn, getLsbD_ofBits, decide_eq_true hm, Bool.true_and]

theorem toGcm_ofGcm (b : Vector Byte 16) : toGcm (ofGcm b) = b := by
  ext j hj m hm
  rw [← BitVec.getLsbD_eq_getElem, ← BitVec.getLsbD_eq_getElem, getLsbD_toGcm _ hj hm, getLsbD_ofGcm b hj (by omega),
    Nat.sub_sub_self (by omega)]

theorem ofGcm_toGcm (v : Elem) : ofGcm (toGcm v) = v := by
  apply BitVec.eq_of_getLsbD_eq
  intro i hi
  have inByte : i % 8 < 8 := Nat.mod_lt _ (by decide)
  have place : i = 8 * (i / 8) + i % 8 := (Nat.div_add_mod i 8).symm
  rw [place, getLsbD_ofGcm _ (by omega) inByte, getLsbD_toGcm _ _ (by omega), Nat.sub_sub_self (by omega)]

/-! ### The big-endian integer -/

/-- The number that n followed by the bytes writes, most significant first. -/
def bigEndian (n : Nat) (bytes : List Byte) : Nat := bytes.foldl (fun n (x : Byte) => 256 * n + x.toNat) n

theorem bigEndian_cons (n : Nat) (x : Byte) (xs : List Byte) :
    bigEndian n (x :: xs) = bigEndian (256 * n + x.toNat) xs := rfl

theorem testBit_append_byte (n : Nat) (x : Byte) (i : Nat) :
    (256 * n + x.toNat).testBit i = if i < 8 then x.getLsbD i else n.testBit (i - 8) :=
  Nat.testBit_two_pow_mul_add n x.isLt i

/-- Above the bits of the bytes stand those of the number before them. -/
theorem testBit_bigEndian_above (n : Nat) (bytes : List Byte) (m : Nat) :
    (bigEndian n bytes).testBit (8 * bytes.length + m) = n.testBit m := by
  induction bytes generalizing n m with
  | nil => rw [List.length_nil, Nat.mul_zero, Nat.zero_add, bigEndian, List.foldl_nil]
  | cons x xs ih =>
    have place : 8 * (xs.length + 1) + m = 8 * xs.length + (8 + m) := by omega
    rw [List.length_cons, place, bigEndian_cons, ih, testBit_append_byte, if_neg (by omega), Nat.add_sub_cancel_left]

/-- Byte j has the bits below which the bytes after it stand. -/
theorem testBit_bigEndian (n : Nat) (bytes : List Byte) {j : Nat} (hj : j < bytes.length) {m : Nat} (hm : m < 8) :
    (bigEndian n bytes).testBit (8 * (bytes.length - 1 - j) + m) = bytes[j].getLsbD m := by
  induction bytes generalizing n j with
  | nil => exact absurd hj (Nat.not_lt_zero j)
  | cons x xs ih =>
    cases j with
    | zero =>
      have place : (x :: xs).length - 1 - 0 = xs.length := rfl
      rw [place, bigEndian_cons, testBit_bigEndian_above, testBit_append_byte, if_pos hm, List.getElem_cons_zero]
    | succ j =>
      have place : (x :: xs).length - 1 - (j + 1) = xs.length - 1 - j := by rw [List.length_cons]; omega
      rw [place, bigEndian_cons, List.getElem_cons_succ]
      exact ih _ (Nat.lt_of_succ_lt_succ hj)

/-- Settles O8: the bit map as it is defined, the bits of byte j in the big-endian integer, and the two maps bit by bit. -/
theorem gcmFormBitMap : Obligations.GcmFormBitMap := by
  refine ⟨fun b j hj k hk => getLsbD_ofGcm b hj hk, fun b i hi => ?bitReverse, toGcm_ofGcm, ofGcm_toGcm⟩
  have inByte : i % 8 < 8 := Nat.mod_lt _ (by decide)
  have inBytes : i / 8 < 16 := by omega
  have place : i = 8 * (i / 8) + i % 8 := (Nat.div_add_mod i 8).symm
  have mirror : 127 - i = 8 * (b.toList.length - 1 - i / 8) + (7 - i % 8) := by rw [Vector.length_toList]; omega
  have bitOfByte := testBit_bigEndian 0 b.toList (j := i / 8) (by rwa [Vector.length_toList]) (m := 7 - i % 8) (by omega)
  rw [← mirror, Vector.getElem_toList] at bitOfByte
  rw [place, getLsbD_ofGcm b inBytes inByte, ← bitOfByte, ← place]
  rfl

end Sys2Proof.Machine
end

section
/-! Which instruction a step runs (30_encoding.md section 3), and what one event does to a block: the edge function, a
reset edge, a loss of power, the parameters, and the block before its first reset. -/

namespace Sys2Proof.Machine

/-! ### A step and its request -/

/-- Settles O22: the word of the ports decodes to their halves, and exec of these is the edge with the request that the
cycle already presents. -/
theorem stepRunsDecodedRequest : Obligations.StepRunsDecodedRequest := by
  refine ⟨fun s c he hvalid => ⟨?wf, ?exec, decodeReq_reqOfPorts _ _, step_edge he⟩, fun s c he _ => step_edge he,
    fun s he => step_powerLoss he⟩
  case wf => rw [decodeReq_reqOfPorts, Instr.wf]
  case exec =>
    rw [decodeReq_reqOfPorts, exec_gfmul_edge he, elem_lo_hi, elem_lo_hi, HostCycle.withRequest_self hvalid, step_edge he]

/-! ### One event -/

/-- Settles O28: the reset edge, and the queue of an edge with `rst` = 0, whose new result is GFMUL with either backend. -/
theorem edgeFunction : Obligations.EdgeFunction := by
  refine ⟨fun s c d hs hrst => ⟨_, State.edgeWith_running hs c d, State.runningEdge_phase hs c d, ?reset⟩,
    fun s c d hs hrst => ⟨_, State.edgeWith_running hs c d, State.runningEdge_phase hs c d, ?queue⟩⟩
  case reset => rw [State.consume_q, State.runningEdge_rst d hrst, State.doReset_q]
  case queue => rw [State.consume_q, State.runningEdge_q d hrst, gfmulBy_eq_gfmul]

/-- Settles O33: the request does not change that the edge resets. -/
theorem gfmulAtResetEdgeIsLost : Obligations.GfmulAtResetEdgeIsLost := by
  intro s c a0 a1 b0 b1 hs he hrst
  have reset := State.edge_rst (c := c.withRequest (elem a0 a1) (elem b0 b1)) hrst
    fun unreset => nomatch hs.symm.trans unreset
  exact ⟨_, (exec_gfmul_edge he a0 a1 b0 b1).trans reset, rfl, rfl, rfl, rfl⟩

/-- Settles O38: step and exec are both the loss of power. -/
theorem powerLossLosesQueue : Obligations.PowerLossLosesQueue := by
  intro s i he
  cases i with
  | gfmul a0 a1 b0 b1 =>
    exact ⟨_, step_powerLoss he, exec_gfmul_powerLoss he a0 a1 b0 b1, rfl, rfl, rfl, rfl, rfl, rfl⟩

theorem State.edge_params {s t : State} {c : HostCycle} (h : s.edge c = .next t) : t.params = s.params := by
  obtain ⟨-, rfl⟩ | ⟨-, -, rfl⟩ | ⟨-, -, rfl⟩ := State.edge_next_cases h
  · exact s.runningEdge_params c _
  · rfl
  · rfl

/-- Settles O39: the ranges hold by construction, and each kind of edge, and a loss of power, keeps the parameters. -/
theorem parametersAreFixed : Obligations.ParametersAreFixed := by
  have fixed {s t : State} {o : Host.Outcome State Fault Refusal}
      (h : (∃ c, o = s.edge c) ∨ o = .next s.losePower) (ho : o = .next t) : t.params = s.params := by
    obtain ⟨c, hc⟩ | hl := h
    · exact State.edge_params (hc.symm.trans ho)
    · cases hl.symm.trans ho
      rfl
  refine ⟨fun p => ⟨Nat.succ_pos _, Nat.le_add_right _ _⟩, fun depth latMin latMax hdepth hlat impl => ?_,
    fun s t => fixed (step_eq_edge_or_losePower s), fun i s t => fixed (exec_eq_edge_or_losePower i s)⟩
  exact ⟨⟨impl, depth - 1, latMin, latMax - latMin⟩, rfl, Nat.sub_add_cancel hdepth, rfl, Nat.add_sub_of_le hlat⟩

/-- The cycle c with this use of `rsp_r` (log 6). -/
def HostCycle.looking (c : HostCycle) (looks : Bool) : HostCycle := { c with readsR := looks }

theorem State.consume_doReset_looking {s : State} {c : HostCycle} {evs : List HostEvent} (hhost : s.host = .edge c :: evs)
    (looks : Bool) : (s.expecting (c.looking looks) evs).doReset.consume (c.looking looks) = s.doReset.consume c := by
  rw [State.consume, State.consume, State.doReset_host, State.doReset_host, hhost]
  rfl

theorem State.afterEdge_looking {s : State} {c : HostCycle} {evs : List HostEvent} (hhost : s.host = .edge c :: evs)
    (looks : Bool) : (s.expecting (c.looking looks) evs).afterEdge (c.looking looks) = s.afterEdge c := by
  rw [State.afterEdge, State.afterEdge, hhost]
  rfl

/-- Settles O31: neither the reset nor an edge with `rst` = 0 of a `Running` block sees the flag. -/
theorem lookingHasNoEffect : Obligations.LookingHasNoEffect := by
  intro s c evs looks hs hhost
  change step (s.expecting (c.looking looks) evs) = step s
  have noUnreset : ∀ {p : Prop}, s.phase = .unreset → p := fun unreset => nomatch hs.symm.trans unreset
  cases hrst : c.rst with
  | true =>
    rw [step_rst (State.nextEvent_cons hhost) hrst noUnreset, ← State.consume_doReset_looking hhost looks]
    exact step_rst (c := c.looking looks) rfl hrst noUnreset
  | false =>
    have edge : RunningEdge s c := ⟨hs, State.nextEvent_cons hhost, hrst⟩
    have edge' := RunningEdge.expecting (c := c.looking looks) hs hrst evs
    rw [edge.step_eq_afterEdge, edge'.step_eq_afterEdge, State.afterEdge_looking hhost]

/-! ### Before the first reset -/

/-- Settles O36: whether a step faults, and what it does, depends on the event, the draws and the phase; only an edge with
`rst` = 0 leaves the queue, as it was. -/
theorem unresetQueueIsNotRead : Obligations.UnresetQueueIsNotRead := by
  refine fun s q' hs => ⟨fun f => ?sameFault, fun t hstep => ?sameStep⟩
  case sameFault =>
    simp only [step_eq_fault_iff, State.edge_eq_fault_iff]
    rfl
  case sameStep =>
    cases he : s.nextEvent with
    | powerLoss =>
      cases (step_powerLoss he).symm.trans hstep
      exact ⟨_, step_powerLoss (s := { s with q := q' }) he, rfl, nofun⟩
    | edge c =>
      rw [step_edge he, State.edge, State.edgeWith_unreset hs] at hstep
      rw [step_edge (s := { s with q := q' }) he, State.edge, State.edgeWith_unreset (s := { s with q := q' }) hs]
      split at hstep
      · cases hstep
      · next noUse =>
        cases hstep
        rw [if_neg (by exact noUse)]
        cases c.rst with
        | true => exact ⟨_, rfl, rfl, fun _ => rfl⟩
        | false => exact ⟨_, rfl, rfl, fun running => nomatch hs.symm.trans running⟩

/-- A cycle of a host that keeps off has no beat before the first reset, and no use of `rsp_r`. -/
theorem HostEvent.no_use_of_keepsOff {c : HostCycle} (h : (HostEvent.edge c).keepsOff = true) (d : Draw) :
    c.readsR = false ∧ unresetBeat c d = false := by
  rw [HostEvent.keepsOff] at h
  rw [unresetBeat]
  cases hrst : c.rst with
  | true => simpa [hrst] using h
  | false =>
    obtain ⟨noRead, noRequest, noTake⟩ : c.readsR = false ∧ c.reqValid = false ∧ c.rspReady = false := by
      simpa [hrst] using h
    simp [noRead, noRequest, noTake]

/-- Settles O37: the fault needs a use before the first reset, and no edge of a `Running` block leaves that phase. -/
theorem dutifulHostIsSafe : Obligations.DutifulHostIsSafe := by
  refine ⟨fun s hoff f hfault => ?safe, fun s t hs hpower hstep => ?running⟩
  case safe =>
    obtain ⟨c, he, hedge⟩ := step_eq_fault_iff.mp hfault
    obtain ⟨-, hs, huse⟩ := State.edge_eq_fault_iff.mp hedge
    obtain ⟨noRead, noBeat⟩ := HostEvent.no_use_of_keepsOff (he ▸ hoff hs) (s.nextDraw c)
    simp [noRead, noBeat] at huse
  case running =>
    obtain ⟨he, -⟩ | ⟨c, -, ⟨-, rfl⟩ | ⟨hs', -⟩ | ⟨hs', -⟩⟩ := step_next_cases hstep
    · exact absurd he hpower
    · exact State.runningEdge_phase hs c _
    · cases hs.symm.trans hs'
    · cases hs.symm.trans hs'

end Sys2Proof.Machine
end

section
/-! What an edge leaves unchanged (42_gfmul.md section 2): the entries that stay in flight, and an offered result. -/

namespace Sys2Proof.Machine

theorem eq_cons_of_getElem?_zero {α : Type} {l : List α} {x : α} (h : l[0]? = some x) : ∃ rest, l = x :: rest :=
  List.head?_eq_some_iff.mp (List.head?_eq_getElem?.trans h)

@[simp] theorem State.keptQueue_withRequest (s : State) (c : HostCycle) (a b : Elem) :
    s.keptQueue (c.withRequest a b) = s.keptQueue c := rfl

/-- The entries kept stand first in the queue, in their order. -/
theorem State.queueToComplete_of_keptQueue {s : State} {c : HostCycle} {i : Nat} {x : Entry}
    (h : (s.keptQueue c)[i]? = some x) : (s.queueToComplete c)[i]? = some x := by
  obtain ⟨inside, -⟩ := List.getElem?_eq_some_iff.mp h
  rw [State.queueToComplete, List.getElem?_append_left inside, h]

/-- What an edge leaves of an entry that stays in flight: all but its `ready`, which can only rise, and its
max(t, t_prev), which is set once (42_gfmul.md R125). -/
structure Entry.KeptAs (x y : Entry) : Prop where
  r : y.r = x.r
  t : y.t = x.t
  ready : x.ready = true → y.ready = true
  base : ∀ b, x.base = some b → y.base = some b

theorem Entry.KeptAs.refl (x : Entry) : x.KeptAs x := ⟨rfl, rfl, id, fun _ => id⟩

theorem Entry.KeptAs.trans {x y z : Entry} (h : x.KeptAs y) (h' : y.KeptAs z) : x.KeptAs z :=
  ⟨h'.r.trans h.r, h'.t.trans h.t, h'.ready ∘ h.ready, fun b hb => h'.base b (h.base b hb)⟩

theorem completeEntry_keptAs (p : Params) (e : Nat) (a n : Bool) (x : Entry) : x.KeptAs (completeEntry p e a n x) :=
  ⟨rfl, rfl, completeEntry_ready_mono p e a n, fun _ => completeEntry_base_some p e a n⟩

/-- Every entry that is not delivered at an edge keeps its place. -/
theorem State.afterEdge_keeps {s : State} {c : HostCycle} {i : Nat} {x : Entry} (h : (s.keptQueue c)[i]? = some x) :
    ∃ y, (s.afterEdge c).q[i]? = some y ∧ x.KeptAs y :=
  ⟨_, State.afterEdge_q_getElem? (State.queueToComplete_of_keptQueue h), completeEntry_keptAs _ _ _ _ x⟩

/-- Settles O25: exec is the edge with the request on it, whose fields are read off, and what completing does to one
entry. -/
theorem gfmulFrame : Obligations.GfmulFrame := by
  intro s t c a0 a1 b0 b1 h hexec
  cases (h.exec_gfmul_eq_afterEdge a0 a1 b0 b1).symm.trans hexec
  have accepts : ((c.withRequest (elem a0 a1) (elem b0 b1)).reqValid &&
      s.canAccept (c.withRequest (elem a0 a1) (elem b0 b1))) = s.canAccept c := by
    rw [State.canAccept_withRequest]
    exact Bool.true_and _
  refine ⟨rfl, rfl, ?hist, rfl, rfl, ?accepted, rfl, ?length, fun i x hx => ?entry⟩
  case hist =>
    rw [← h.rst]
    rfl
  case accepted =>
    rw [State.afterEdge, accepts]
    rfl
  case length =>
    rw [State.afterEdge, completeFrom_length, State.queueToComplete, List.length_append, State.keptQueue_withRequest,
      accepts]
    split <;> rfl
  case entry =>
    obtain ⟨y, hy, hr, ht, hready, hbase⟩ := State.afterEdge_keeps (c := c.withRequest (elem a0 a1) (elem b0 b1)) hx
    exact ⟨y, hy, hr, ht, hready, hbase⟩

theorem State.delivers_of_not_taken {s : State} {c : HostCycle} (h : c.rspReady = false) : s.delivers c = false := by
  rw [State.delivers, h, Bool.and_false]

theorem State.keptQueue_of_not_delivers {s : State} {c : HostCycle} (h : s.delivers c = false) : s.keptQueue c = s.q := by
  rw [State.keptQueue, h]
  rfl

/-- Settles O21: a head that is not taken stays the head, with its result, and stays ready. -/
theorem offeredResultIsStable : Obligations.OfferedResultIsStable := by
  intro s c x rest h hq hready hwait
  have head : (s.keptQueue c)[0]? = some x := by
    rw [State.keptQueue_of_not_delivers (State.delivers_of_not_taken hwait), hq]
    rfl
  obtain ⟨y, hy, kept⟩ := State.afterEdge_keeps head
  obtain ⟨rest', hq'⟩ := eq_cons_of_getElem?_zero hy
  refine ⟨_, h.step_eq_afterEdge, fun d => ?_⟩
  rw [State.outputs_running (s := s.afterEdge c) h.phase, hq', headResult_cons_of_ready (kept.ready hready)]
  exact ⟨kept.ready hready, kept.r⟩

end Sys2Proof.Machine
end

section
/-! The invariant of a `Running` block (10_state.md R31): an edge keeps the latency bounds of 42_gfmul.md R125 along the
queue, as it keeps the records, so every step and every exec keeps `State.Inv`. -/

namespace Sys2Proof.Machine

/-! ### The bounds along the queue -/

/-- An entry accepted at edge e, which is completed at that edge too, is within its bounds after it. -/
theorem completeEntry_accepted_onTime (p : Params) (e : Nat) (a n : Bool) (r : Elem) :
    (completeEntry p e a n ⟨r, false, e, none⟩).onTime p (e + 1) a := by
  refine ⟨Nat.lt_succ_self e, fun hready => ?first, ?known, fun b hb => ?last⟩
  case first => exact Nat.lt_succ_of_le ((completeEntry_ready_iff rfl).mp hready).1
  case known => cases a <;> rfl
  case last =>
    obtain rfl : e = b := by
      cases a with
      | false => cases hb
      | true => exact Option.some.inj hb
    refine ⟨le_rfl, Nat.lt_succ_self e, fun hnot => ?_⟩
    by_contra past
    have lastEdge : e + p.latMax ≤ e := by omega
    have firstEdge : e + p.latMin ≤ e := (Nat.add_le_add_left (Nat.le_add_right _ _) e).trans lastEdge
    have hready := (completeEntry_ready_iff (p := p) (a := a) (n := n) rfl).mpr ⟨firstEdge, .inr ⟨e, hb, lastEdge⟩⟩
    exact Bool.false_ne_true (hnot.symm.trans hready)

/-- Completing keeps the bounds along a queue at whose tail an entry was accepted at the same edge. -/
theorem completeFrom_accepted_onTime {p : Params} {e : Nat} (ns : List Nat) (i : Nat) {a' a : Bool} {q : List Entry}
    (h : queueOnTime p e a' q) (haa : a' = true → a = true) (r : Elem) :
    queueOnTime p (e + 1) a (completeFrom p e ns i a (q ++ [⟨r, false, e, none⟩])) := by
  induction q generalizing i a' a with
  | nil => exact ⟨completeEntry_accepted_onTime p e a _ r, trivial⟩
  | cons x xs ih =>
    exact ⟨completeEntry_onTime h.1 haa, ih (i + 1) h.2 fun hx => completeEntry_ready_mono p e a _ hx⟩

/-- Every entry in flight is within its bounds: the last clause of `State.Inv`. -/
def State.onTime (s : State) : Prop := queueOnTime s.params s.edgeNo true s.q

/-- The entry behind a delivered head becomes the head, and the head delivered was ready. -/
theorem State.keptQueue_onTime {s : State} (h : s.onTime) (c : HostCycle) :
    queueOnTime s.params s.edgeNo true (s.keptQueue c) := by
  rw [State.keptQueue]
  split
  next delivers =>
    obtain ⟨x, rest, hq, hready⟩ := headReady_eq_true_iff.mp (Bool.and_eq_true_iff.mp delivers).1
    rw [State.onTime, hq] at h
    have behind := h.2
    rw [hready] at behind
    rwa [hq, List.tail_cons]
  next => exact h

theorem State.afterEdge_onTime {s : State} (h : s.onTime) (c : HostCycle) : (s.afterEdge c).onTime := by
  rw [State.onTime, State.afterEdge, State.queueToComplete]
  split
  next => exact completeFrom_accepted_onTime _ 0 (State.keptQueue_onTime h c) id _
  next =>
    rw [List.append_nil]
    exact completeFrom_onTime _ 0 (State.keptQueue_onTime h c) id

/-! ### The invariant -/

theorem State.Inv.recordsAgree {s : State} (h : s.Inv) : s.recordsAgree := fun hs => ⟨(h hs).1, (h hs).2.1⟩

theorem State.Inv.onTime {s : State} (h : s.Inv) (hs : s.phase = .running) : s.onTime := (h hs).2.2

theorem State.afterEdge_inv {s : State} {c : HostCycle} (hs : s.phase = .running) (hrst : c.rst = false) (h : s.Inv) :
    (s.afterEdge c).Inv := by
  intro _
  obtain ⟨room, order, -⟩ := h hs
  refine ⟨State.afterEdge_q_length_le hs hrst room, ?_, State.afterEdge_onTime (h.onTime hs) c⟩
  rw [← State.consume_runningEdge hs hrst]
  exact State.runningEdge_inOrder hs order c _

/-- With nothing in flight and nothing recorded there is nothing to keep. -/
theorem State.inv_of_empty {s : State} (hq : s.q = []) (hacc : s.accepted = []) (hdel : s.delivered = []) : s.Inv := by
  intro _
  rw [State.inOrder, hq, hacc, hdel]
  exact ⟨Nat.zero_le _, rfl, trivial⟩

/-- Before the first reset the invariant says nothing. -/
theorem State.inv_of_unreset {s : State} (hs : s.phase = .unreset) : s.Inv := fun running => nomatch hs.symm.trans running

theorem State.edge_keeps_inv {s t : State} {c : HostCycle} (h : s.Inv) (hedge : s.edge c = .next t) : t.Inv := by
  obtain ⟨hs, rfl⟩ | ⟨-, -, rfl⟩ | ⟨hs, -, rfl⟩ := State.edge_next_cases hedge
  · cases hrst : c.rst with
    | true =>
      rw [State.runningEdge_rst _ hrst]
      exact State.inv_of_empty rfl rfl rfl
    | false =>
      rw [State.consume_runningEdge hs hrst]
      exact State.afterEdge_inv hs hrst h
  · exact State.inv_of_empty rfl rfl rfl
  · exact State.inv_of_unreset hs

theorem keeps_inv_of_edge_or_losePower {s t : State} {o : Host.Outcome State Fault Refusal}
    (ho : (∃ c, o = s.edge c) ∨ o = .next s.losePower) (h : s.Inv) (hnext : o = .next t) : t.Inv := by
  obtain ⟨c, hc⟩ | hl := ho
  · exact State.edge_keeps_inv h (hc.symm.trans hnext)
  · cases hl.symm.trans hnext
    exact State.inv_of_unreset rfl

theorem step_keeps_inv {s t : State} (h : s.Inv) (hstep : step s = .next t) : t.Inv :=
  keeps_inv_of_edge_or_losePower (step_eq_edge_or_losePower s) h hstep

/-- Settles O41: step and exec are an edge or a loss of power, and each of these keeps the invariant. -/
theorem everyStepKeepsInvariant : Obligations.EveryStepKeepsInvariant :=
  ⟨fun _ _ => step_keeps_inv, fun i s _ => keeps_inv_of_edge_or_losePower (exec_eq_edge_or_losePower i s)⟩

/-- Settles O40: both states have nothing in flight and nothing recorded. -/
theorem resetMeetsInvariant : Obligations.ResetMeetsInvariant :=
  ⟨State.inv_of_empty rfl rfl rfl, State.inv_of_unreset rfl, rfl, rfl, rfl⟩

theorem State.Inv.length_accepted {s : State} (h : s.Inv) (hs : s.phase = .running) :
    s.accepted.length = s.delivered.length + s.q.length :=
  (h.recordsAgree hs).2.length_accepted

/-- Settles O43: the operations accepted are those delivered and those in flight. -/
theorem drainedWhenCountsAgree : Obligations.DrainedWhenCountsAgree := by
  intro s h hs
  rw [h.length_accepted hs, ← List.length_eq_zero_iff]
  omega

end Sys2Proof.Machine
end

section
/-! Runs of a `Running` block whose host's coming events are fixed (42_gfmul.md R127): each edge is one of `State.afterEdge`,
so what every edge keeps, while the number of edges left goes down, holds at the end of the run. -/

namespace Sys2Proof.Machine

/-! ### Runs -/

/-- The host's first n events, all fixed, are edges with `rst` = 0 whose cycles are of this kind. -/
def State.hostDoes (s : State) (n : Nat) (P : HostCycle → Prop) : Prop :=
  n ≤ s.host.length ∧ ∀ ev ∈ s.host.take n, ∃ c : HostCycle, ev = .edge c ∧ c.rst = false ∧ P c

theorem State.hostHolds_iff_hostDoes {s : State} {n : Nat} {ready : Bool} :
    s.hostHolds n ready ↔ s.hostDoes n fun c => c.rspReady = ready := Iff.rfl

theorem State.hostDoes_succ {s : State} {n : Nat} {P : HostCycle → Prop} (hs : s.phase = .running)
    (h : s.hostDoes (n + 1) P) : ∃ c, RunningEdge s c ∧ P c ∧ (s.afterEdge c).hostDoes n P := by
  obtain ⟨fixed, events⟩ := h
  cases hhost : s.host with
  | nil =>
    rw [hhost] at fixed
    exact absurd fixed (Nat.not_succ_le_zero n)
  | cons ev evs =>
    rw [hhost] at fixed events
    obtain ⟨c, rfl, hrst, hP⟩ := events ev List.mem_cons_self
    refine ⟨c, ⟨hs, State.nextEvent_cons hhost, hrst⟩, hP, ?_⟩
    rw [State.hostDoes, State.afterEdge, hhost]
    exact ⟨Nat.le_of_succ_le_succ fixed, fun ev hev => events ev (List.mem_cons_of_mem _ hev)⟩

theorem run_succ_of_step {M : Host.Core} {s t : M.State} (h : M.step s = .next t) (n : Nat) :
    M.run (n + 1) s = M.run n t := by
  rw [Host.Core.run, h]

theorem RunningEdge.run_succ {s : State} {c : HostCycle} (h : RunningEdge s c) (n : Nat) :
    Sys2Proof.core.run (n + 1) s = Sys2Proof.core.run n (s.afterEdge c) :=
  run_succ_of_step (M := Sys2Proof.core) h.step_eq_afterEdge n

theorem run_add {M : Host.Core} {m : Nat} {s t : M.State} (h : M.run m s = .next t) (n : Nat) :
    M.run (m + n) s = M.run n t := by
  induction m generalizing s with
  | zero =>
    cases h
    rw [Nat.zero_add]
  | succ m ih =>
    rw [Host.Core.run] at h
    split at h
    next u hu => rw [Nat.add_right_comm, run_succ_of_step hu, ih h]
    next => cases h
    next => cases h

/-- The one induction over a run whose host's events are fixed: R tells how many edges are left, and each edge keeps it. -/
theorem run_of_hostDoes {P : HostCycle → Prop} {R : Nat → State → Prop}
    (hstep : ∀ (n : Nat) (u : State) (c : HostCycle), R (n + 1) u → RunningEdge u c → P c → R n (u.afterEdge c))
    (n m : Nat) {s : State} (hs : s.phase = .running) (hhost : s.hostDoes (n + m) P) (h : R n s) :
    ∃ t, Sys2Proof.core.run n s = .next t ∧ t.phase = .running ∧ t.hostDoes m P ∧ R 0 t := by
  induction n generalizing s with
  | zero => exact ⟨s, rfl, hs, by rwa [Nat.zero_add] at hhost, h⟩
  | succ n ih =>
    rw [Nat.succ_add] at hhost
    obtain ⟨c, edge, hP, rest⟩ := State.hostDoes_succ hs hhost
    rw [edge.run_succ]
    exact ih (s := s.afterEdge c) hs rest (hstep n s c h edge hP)

/-! ### A full queue -/

theorem State.canAccept_of_full {s : State} (h : s.params.depth ≤ s.q.length) (c : HostCycle) : s.canAccept c = false := by
  rw [State.canAccept, decide_eq_false (Nat.not_lt.mpr h), Bool.false_and]

/-- The same operations in flight and recorded: nothing was accepted or delivered. -/
structure State.SameBeats (s u : State) : Prop where
  params : u.params = s.params
  accepted : u.accepted = s.accepted
  delivered : u.delivered = s.delivered
  results : u.q.map (·.r) = s.q.map (·.r)

theorem State.afterEdge_sameBeats {s : State} {c : HostCycle} (noAccept : (c.reqValid && s.canAccept c) = false)
    (noDeliver : s.delivers c = false) : s.SameBeats (s.afterEdge c) where
  params := rfl
  accepted := by
    rw [State.afterEdge, noAccept]
    exact List.append_nil _
  delivered := by
    rw [State.afterEdge, noDeliver]
    exact List.append_nil _
  results := by
    rw [State.afterEdge_q_map_r, noAccept, State.keptResults, noDeliver]
    exact List.append_nil _

theorem State.SameBeats.trans {s t u : State} (h : s.SameBeats t) (h' : t.SameBeats u) : s.SameBeats u :=
  ⟨h'.params.trans h.params, h'.accepted.trans h.accepted, h'.delivered.trans h.delivered, h'.results.trans h.results⟩

theorem State.SameBeats.length_q {s u : State} (h : s.SameBeats u) : u.q.length = s.q.length := by
  simpa using congrArg List.length h.results

/-- Settles O45: at a full queue no edge accepts, and at `rsp_ready` = 0 none delivers, so the queue stays full. -/
theorem fullQueueWaits : Obligations.FullQueueWaits := by
  intro n s hs full hhost
  have everyEdge : ∀ (k : Nat) (u : State) (c : HostCycle),
      s.SameBeats u → RunningEdge u c → c.rspReady = false → s.SameBeats (u.afterEdge c) := by
    intro _ u c same _ hwait
    have stillFull : u.params.depth ≤ u.q.length := by rwa [same.params, same.length_q]
    have noAccept : (c.reqValid && u.canAccept c) = false := by rw [State.canAccept_of_full stillFull, Bool.and_false]
    exact same.trans (State.afterEdge_sameBeats noAccept (State.delivers_of_not_taken hwait))
  obtain ⟨t, hrun, ht, -, -, hacc, hdel, hres⟩ :=
    run_of_hostDoes (R := fun _ => s.SameBeats) everyEdge n 0 hs (State.hostHolds_iff_hostDoes.mp hhost)
      ⟨rfl, rfl, rfl, rfl⟩
  exact ⟨t, hrun, ht, hacc, hdel, hres⟩

end Sys2Proof.Machine
end

section
/-! Every entry becomes ready (42_gfmul.md R127 (ii)): `LAT_MAX` edges after the entry ahead is ready the entry itself is, by
the bound of R125 (b) that `State.onTime` keeps. -/

namespace Sys2Proof.Machine

/-! ### Waiting -/

/-- u is s after n edges at which the host took nothing: every entry in flight at s is kept in its place. -/
structure State.Waited (s : State) (n : Nat) (u : State) : Prop where
  onTime : u.onTime
  params : u.params = s.params
  edgeNo : u.edgeNo = s.edgeNo + n
  keeps : ∀ (i : Nat) (x : Entry), s.q[i]? = some x → ∃ y, u.q[i]? = some y ∧ x.KeptAs y

theorem State.Waited.refl {s : State} (h : s.onTime) : s.Waited 0 s :=
  ⟨h, rfl, rfl, fun _ x hx => ⟨x, hx, .refl x⟩⟩

theorem State.Waited.trans {s t u : State} {n m : Nat} (h : s.Waited n t) (h' : t.Waited m u) : s.Waited (n + m) u where
  onTime := h'.onTime
  params := h'.params.trans h.params
  edgeNo := by rw [h'.edgeNo, h.edgeNo, Nat.add_assoc]
  keeps i x hx := by
    obtain ⟨y, hy, keptY⟩ := h.keeps i x hx
    obtain ⟨z, hz, keptZ⟩ := h'.keeps i y hy
    exact ⟨z, hz, keptY.trans keptZ⟩

theorem State.Waited.afterEdge {s : State} {c : HostCycle} (h : s.onTime) (hwait : c.rspReady = false) :
    s.Waited 1 (s.afterEdge c) where
  onTime := State.afterEdge_onTime h c
  params := rfl
  edgeNo := rfl
  keeps i x hx := by
    rw [← State.keptQueue_of_not_delivers (State.delivers_of_not_taken hwait)] at hx
    exact State.afterEdge_keeps hx

theorem run_waits (n m : Nat) {s : State} (h : s.onTime) (hs : s.phase = .running) (hhost : s.hostHolds (n + m) false) :
    ∃ t, Sys2Proof.core.run n s = .next t ∧ t.phase = .running ∧ t.hostHolds m false ∧ s.Waited n t := by
  have everyEdge : ∀ (k : Nat) (u : State) (c : HostCycle), (∃ j, j + (k + 1) = n ∧ s.Waited j u) →
      RunningEdge u c → c.rspReady = false → ∃ j, j + k = n ∧ s.Waited j (u.afterEdge c) := by
    rintro k u c ⟨j, hj, waited⟩ _ hwait
    exact ⟨j + 1, by omega, waited.trans (.afterEdge waited.onTime hwait)⟩
  obtain ⟨t, hrun, ht, rest, j, rfl, waited⟩ :=
    run_of_hostDoes (R := fun k u => ∃ j, j + k = n ∧ s.Waited j u) everyEdge n m hs
      (State.hostHolds_iff_hostDoes.mp hhost) ⟨0, Nat.zero_add n, .refl h⟩
  exact ⟨t, hrun, ht, rest, waited⟩

/-! ### One entry after another -/

theorem queueOnTime_getElem? {p : Params} {e : Nat} {a : Bool} {q : List Entry} {i : Nat} {x : Entry}
    (h : queueOnTime p e a q) (hx : q[i]? = some x) : x.onTime p e (aheadReady a q i) := by
  induction q generalizing a i with
  | nil => cases hx
  | cons y ys ih =>
    cases i with
    | zero =>
      cases hx
      exact h.1
    | succ i =>
      have sameAhead : aheadReady a (y :: ys) (i + 1) = aheadReady y.ready ys i := by cases i <;> simp [aheadReady]
      rw [sameAhead]
      exact ih h.2 hx

/-- An entry behind one that is ready, or behind none, has its max(t, t_prev), at an edge that is past. -/
theorem State.onTime.base_of_aheadReady {s : State} {i : Nat} {x : Entry} (h : s.onTime) (hx : s.q[i]? = some x)
    (ahead : aheadReady true s.q i = true) : ∃ b, x.base = some b ∧ b < s.edgeNo := by
  obtain ⟨-, -, known, bounds⟩ := queueOnTime_getElem? h hx
  obtain ⟨b, hb⟩ := Option.isSome_iff_exists.mp (known.trans ahead)
  exact ⟨b, hb, (bounds b hb).2.1⟩

/-- An entry whose last edge is past is ready (42_gfmul.md R125 (b)). -/
theorem State.onTime.ready_of_past {s : State} {i : Nat} {x : Entry} {b : Nat} (h : s.onTime) (hx : s.q[i]? = some x)
    (hb : x.base = some b) (past : b + s.params.latMax < s.edgeNo) : x.ready = true := by
  obtain ⟨-, -, -, bounds⟩ := queueOnTime_getElem? h hx
  rw [← Bool.not_eq_false]
  exact fun hnot => Nat.not_lt.mpr ((bounds b hb).2.2 hnot) past

/-- If every entry ahead of position i is ready, the entry there is `LAT_MAX` edges later. -/
theorem State.Waited.ready {s t : State} {i : Nat} {x : Entry} (waited : s.Waited s.params.latMax t) (h : s.onTime)
    (hx : s.q[i]? = some x) (ahead : aheadReady true s.q i = true) : aheadReady true t.q (i + 1) = true := by
  obtain ⟨b, hb, hpast⟩ := h.base_of_aheadReady hx ahead
  obtain ⟨y, hy, kept⟩ := waited.keeps i x hx
  have past : b + t.params.latMax < t.edgeNo := by
    rw [waited.params, waited.edgeNo]
    omega
  exact aheadReady_true_iff.mpr (.inr ⟨y, hy, waited.onTime.ready_of_past hy (kept.base b hb) past⟩)

/-- After i * `LAT_MAX` edges of waiting the entry ahead of position i is ready. -/
theorem run_waits_aheadReady {s : State} (h : s.onTime) (hs : s.phase = .running) (i : Nat) (hi : i ≤ s.q.length)
    (n m : Nat) (hn : i * s.params.latMax ≤ n) (hhost : s.hostHolds (n + m) false) :
    ∃ t, Sys2Proof.core.run n s = .next t ∧ t.phase = .running ∧ t.hostHolds m false ∧ s.Waited n t ∧
      aheadReady true t.q i = true := by
  induction i generalizing n m with
  | zero =>
    obtain ⟨t, hrun, ht, rest, waited⟩ := run_waits n m h hs hhost
    exact ⟨t, hrun, ht, rest, waited, rfl⟩
  | succ i ih =>
    rw [Nat.succ_mul] at hn
    obtain ⟨k, rfl⟩ := Nat.exists_eq_add_of_le' (Nat.le_of_add_left_le hn)
    rw [Nat.add_assoc] at hhost
    obtain ⟨u, hrun, hu, rest, waited, ahead⟩ :=
      ih (Nat.le_of_succ_le hi) k _ (Nat.le_of_add_le_add_right hn) hhost
    rw [← waited.params] at rest
    obtain ⟨t, hrun', ht, rest', waited'⟩ := run_waits _ m waited.onTime hu rest
    obtain ⟨x, hx⟩ : ∃ x, s.q[i]? = some x := ⟨_, List.getElem?_eq_getElem hi⟩
    obtain ⟨y, hy, -⟩ := waited.keeps i x hx
    rw [← waited.params]
    exact ⟨t, (run_add hrun _).trans hrun', ht, rest', waited.trans waited', waited'.ready waited.onTime hy ahead⟩

/-- Settles O46: entry by entry from the head, each ready within `LAT_MAX` edges of the one ahead. -/
theorem everyEntryBecomesReady : Obligations.EveryEntryBecomesReady := by
  intro n i s x hinv hs hx hn hhost
  have inside : i + 1 ≤ s.q.length := (List.getElem?_eq_some_iff.mp hx).1
  obtain ⟨t, hrun, -, -, waited, ahead⟩ := run_waits_aheadReady (hinv.onTime hs) hs (i + 1) inside n 0 hn hhost
  obtain ⟨y, hy, kept⟩ := waited.keeps i x hx
  obtain ⟨z, hz, hready⟩ := (aheadReady_true_iff.mp ahead).resolve_left (Nat.succ_ne_zero i)
  obtain rfl : y = z := Option.some.inj (hy.symm.trans hz)
  exact ⟨t, y, hrun, hy, kept.r, hready⟩

end Sys2Proof.Machine
end

section
/-! A host that takes results (42_gfmul.md R127): the head is delivered within its bound, so one operation comes to its end,
and a host that keeps asking is served. -/

namespace Sys2Proof.Machine

/-! ### The head's last edge -/

/-- The head is delivered at one of the next n edges, if the host takes results: it becomes ready by edge
max(t, t_prev) + `LAT_MAX`, and is delivered at the edge after. -/
def State.HeadDue (s : State) (n : Nat) : Prop :=
  n ≠ 0 ∧ ∃ x rest b, s.q = x :: rest ∧ x.base = some b ∧ b + s.params.latMax + 2 ≤ s.edgeNo + n

/-- At an edge at which the host takes results the head is delivered, or it stays and is due in one edge less. -/
theorem State.HeadDue.afterEdge {s : State} {c : HostCycle} {n : Nat} (hdue : s.HeadDue (n + 1)) (h : s.onTime)
    (htake : c.rspReady = true) : s.delivers c = true ∨ (s.delivers c = false ∧ (s.afterEdge c).HeadDue n) := by
  obtain ⟨-, x, rest, b, hq, hb, due⟩ := hdue
  have head : s.q[0]? = some x := by rw [hq, List.getElem?_cons_zero]
  cases hready : x.ready with
  | true => exact .inl (State.delivers_of_head hq hready htake)
  | false =>
    have noDeliver : s.delivers c = false := State.delivers_of_no_head (by rw [hq]; exact hready)
    have notPast : s.edgeNo ≤ b + s.params.latMax := by
      by_contra past
      exact Bool.false_ne_true (hready.symm.trans (h.ready_of_past head hb (Nat.not_le.mp past)))
    rw [← State.keptQueue_of_not_delivers noDeliver] at head
    obtain ⟨y, hy, kept⟩ := State.afterEdge_keeps head
    obtain ⟨rest', hq'⟩ := eq_cons_of_getElem?_zero hy
    have later : b + s.params.latMax + 2 ≤ s.edgeNo + 1 + n := by omega
    exact .inr ⟨noDeliver, by omega, y, rest', b, hq', kept.base b hb, later⟩

/-! ### One whole operation -/

/-- One operation with result r on an otherwise idle block, its record of accepts and of earlier delivers being acc and del,
with n edges to go: it has been delivered, or is the head and is due. -/
def State.Serving (acc : List (Elem × Elem)) (del : List Elem) (r : Elem) (n : Nat) (u : State) : Prop :=
  u.accepted = acc ∧
    ((u.q = [] ∧ u.delivered = del ++ [r]) ∨
      (u.q.map (·.r) = [r] ∧ u.delivered = del ∧ u.onTime ∧ u.HeadDue n))

theorem State.Serving.afterEdge {acc : List (Elem × Elem)} {del : List Elem} {r : Elem} {n : Nat} {u : State}
    {c : HostCycle} (h : u.Serving acc del r (n + 1)) (noRequest : c.reqValid = false) (htake : c.rspReady = true) :
    (u.afterEdge c).Serving acc del r n := by
  have noAccept : (c.reqValid && u.canAccept c) = false := by rw [noRequest, Bool.false_and]
  obtain ⟨hacc, ⟨hq, hdel⟩ | ⟨hres, hdel, honTime, hdue⟩⟩ := h
  · have same := State.afterEdge_sameBeats noAccept (State.delivers_of_no_head (c := c) (by rw [hq]; rfl))
    refine ⟨same.accepted.trans hacc, .inl ⟨?_, same.delivered.trans hdel⟩⟩
    exact List.length_eq_zero_iff.mp (same.length_q.trans (by rw [hq]; rfl))
  · obtain delivers | ⟨noDeliver, hdue'⟩ := hdue.afterEdge honTime htake
    · refine ⟨?_, .inl ⟨?_, ?_⟩⟩
      · rw [State.afterEdge, noAccept, hacc]
        exact List.append_nil acc
      · have none : (u.afterEdge c).q.map (·.r) = [] := by
          rw [State.afterEdge_q_map_r, noAccept, State.keptResults, delivers, hres]
          rfl
        exact List.map_eq_nil_iff.mp none
      · rw [State.afterEdge, delivers, hres, hdel]
        rfl
    · have same := State.afterEdge_sameBeats noAccept noDeliver
      exact ⟨same.accepted.trans hacc,
        .inr ⟨same.results.trans hres, same.delivered.trans hdel, State.afterEdge_onTime honTime c, hdue'⟩⟩

/-- A request accepted on an idle block is due in `LAT_MAX` + 1 edges. -/
theorem State.afterEdge_serving {s : State} {c : HostCycle} (hq : s.q = [])
    (accepts : (c.reqValid && s.canAccept c) = true) :
    (s.afterEdge c).Serving (s.accepted ++ [(c.reqA, c.reqB)]) s.delivered (gfmul c.reqA c.reqB) (s.params.latMax + 1) := by
  have noDeliver : s.delivers c = false := State.delivers_of_no_head (by rw [hq]; rfl)
  have idle : s.onTime := by
    rw [State.onTime, hq]
    trivial
  have queue : (s.afterEdge c).q = [completeEntry s.params s.edgeNo true ((s.nextDraw c).completes.contains 0)
      ⟨gfmul c.reqA c.reqB, false, s.edgeNo, none⟩] := by
    rw [State.afterEdge, State.queueToComplete, State.keptQueue_of_not_delivers noDeliver, hq, accepts]
    rfl
  refine ⟨?_, .inr ⟨?_, ?_, State.afterEdge_onTime idle c, Nat.succ_ne_zero _, _, _, s.edgeNo, queue, rfl, ?_⟩⟩
  · rw [State.afterEdge, accepts]
    rfl
  · rw [queue]
    rfl
  · rw [State.afterEdge, noDeliver]
    exact List.append_nil _
  · have edgeNo : (s.afterEdge c).edgeNo = s.edgeNo + 1 := rfl
    have params : (s.afterEdge c).params = s.params := rfl
    rw [edgeNo, params]
    omega

/-- Settles O47: the accepting edge, and then the edges until the operation has been delivered. -/
theorem gfmulDeliversItsProduct : Obligations.GfmulDeliversItsProduct := by
  intro s c evs hs hq hhost hrst hvalid haccept hlen hevs
  have edge : RunningEdge s c := ⟨hs, State.nextEvent_cons hhost, hrst⟩
  have accepts : (c.reqValid && s.canAccept c) = true := by rw [hvalid, haccept]; rfl
  have waits : (s.afterEdge c).hostDoes (s.params.latMax + 1 + 0) fun w => w.reqValid = false ∧ w.rspReady = true := by
    rw [State.hostDoes, State.afterEdge, hhost]
    exact ⟨hlen, hevs⟩
  obtain ⟨t, hrun, ht, -, hacc, ⟨hempty, hdel⟩ | ⟨-, -, -, never, -⟩⟩ :=
    run_of_hostDoes (R := State.Serving (s.accepted ++ [(c.reqA, c.reqB)]) s.delivered (gfmul c.reqA c.reqB))
      (fun _ _ _ serving _ hP => serving.afterEdge hP.1 hP.2) _ 0 (s := s.afterEdge c) hs waits
      (State.afterEdge_serving hq accepts)
  · exact ⟨t, (edge.run_succ _).trans hrun, hdel, hacc, hempty, ht⟩
  · exact absurd rfl never

/-! ### A host that keeps asking -/

/-- A host that keeps asking and taking, with n edges to go, at the last of which `avail` is drawn 1: it has been served
since it had N accepts, or there will be room by the last edge, because there is room or because the head is due. -/
def State.Asking (N : Nat) : Nat → State → Prop
  | 0, u => N < u.accepted.length
  | n + 1, u => N < u.accepted.length ∨
      (N ≤ u.accepted.length ∧ u.q.length ≤ u.params.depth ∧ u.onTime ∧
        (∃ d, u.draws[n]? = some d ∧ d.avail = true) ∧
        (u.q.length < u.params.depth ∨ u.HeadDue n))

theorem State.Asking.of_served {N n : Nat} {u : State} (h : N < u.accepted.length) : u.Asking N n := by
  cases n with
  | zero => exact h
  | succ n => exact .inl h

theorem State.canAccept_of_room {s : State} {d : Draw} (room : s.q.length < s.params.depth) (hd : s.draws[0]? = some d)
    (havail : d.avail = true) (c : HostCycle) : s.canAccept c = true := by
  obtain ⟨ds, hds⟩ := eq_cons_of_getElem?_zero hd
  rw [State.canAccept, decide_eq_true room, State.nextDraw_cons hds, havail]
  rfl

theorem State.afterEdge_q_length_of_no_accept {s : State} {c : HostCycle}
    (noAccept : (c.reqValid && s.canAccept c) = false) : (s.afterEdge c).q.length = (s.keptQueue c).length := by
  rw [State.afterEdge, completeFrom_length, State.queueToComplete, noAccept]
  exact congrArg List.length (List.append_nil _)

theorem State.keptQueue_length_le (s : State) (c : HostCycle) : (s.keptQueue c).length ≤ s.q.length := by
  rw [State.keptQueue]
  split
  next => exact (List.tail_sublist s.q).length_le
  next => exact le_rfl

/-- A deliver makes room. -/
theorem State.keptQueue_length_lt {s : State} {c : HostCycle} (delivers : s.delivers c = true) :
    (s.keptQueue c).length < s.q.length := by
  obtain ⟨x, rest, hq, -⟩ := headReady_eq_true_iff.mp (Bool.and_eq_true_iff.mp delivers).1
  rw [State.keptQueue, delivers, hq]
  exact Nat.lt_succ_self _

theorem State.Asking.afterEdge {N n : Nat} {u : State} {c : HostCycle} (h : u.Asking N (n + 1))
    (hvalid : c.reqValid = true) (htake : c.rspReady = true) : (u.afterEdge c).Asking N n := by
  have grows : u.accepted.length ≤ (u.afterEdge c).accepted.length := (List.prefix_append _ _).length_le
  obtain served | ⟨hN, hlen, honTime, ⟨d, hd, havail⟩, room⟩ := h
  · exact .of_served (Nat.lt_of_lt_of_le served grows)
  cases hcan : u.canAccept c with
  | true =>
    refine .of_served ?_
    rw [State.afterEdge, hvalid, hcan]
    simpa using Nat.lt_succ_of_le hN
  | false =>
    have noAccept : (c.reqValid && u.canAccept c) = false := by rw [hcan, Bool.and_false]
    have length := State.afterEdge_q_length_of_no_accept noAccept
    have kept := State.keptQueue_length_le u c
    cases n with
    | zero =>
      have lastRoom : u.q.length < u.params.depth := room.resolve_right fun hdue => hdue.1 rfl
      cases hcan.symm.trans (State.canAccept_of_room lastRoom hd havail c)
    | succ n =>
      have laterDraw : (u.afterEdge c).draws[n]? = some d := by rw [← hd]; exact List.getElem?_tail
      refine .inr ⟨hN.trans grows, length ▸ kept.trans hlen, State.afterEdge_onTime honTime c,
        ⟨d, laterDraw, havail⟩, ?_⟩
      obtain roomNow | hdue := room
      · exact .inl (length ▸ kept.trans_lt roomNow)
      · obtain delivers | ⟨-, hdue'⟩ := hdue.afterEdge honTime htake
        · exact .inl (length ▸ (State.keptQueue_length_lt delivers).trans_le hlen)
        · exact .inr hdue'

/-- A block that meets the invariant has room, or a head that is due within any `LAT_MAX` + 1 edges. -/
theorem State.room_or_headDue {s : State} (hs : s.phase = .running) (h : s.Inv) {j : Nat} (hj : s.params.latMax + 1 ≤ j) :
    s.q.length < s.params.depth ∨ s.HeadDue j := by
  cases hq : s.q with
  | nil => exact .inl (Nat.succ_pos _)
  | cons x rest =>
    have head : s.q[0]? = some x := by rw [hq, List.getElem?_cons_zero]
    obtain ⟨b, hb, hpast⟩ := (h.onTime hs).base_of_aheadReady head rfl
    exact .inr ⟨by omega, x, rest, b, hq, hb, by omega⟩

/-- Settles O48: the head is delivered before the last edge, so there is room then, if no request was accepted before. -/
theorem fairBlockServesRequest : Obligations.FairBlockServesRequest := by
  intro j s hinv hs hlen hevs hj hdraw
  have asking : s.Asking s.accepted.length (j + 1) :=
    .inr ⟨le_rfl, (hinv hs).1, hinv.onTime hs, hdraw, State.room_or_headDue hs hinv hj⟩
  have asks : s.hostDoes (j + 1 + 0) fun c => c.reqValid = true ∧ c.rspReady = true := ⟨hlen, hevs⟩
  obtain ⟨t, hrun, -, -, served⟩ :=
    run_of_hostDoes (fun _ _ _ asking _ hP => asking.afterEdge hP.1 hP.2) (j + 1) 0 hs asks asking
  exact ⟨t, hrun, served⟩

end Sys2Proof.Machine
end

section
/-! Scripts on a `Running` block (30_encoding.md section 4, 42_gfmul.md R132; log 12): what one turn does to the block, what
it leaves of the script, and both over a whole run. -/

namespace Sys2Proof.Machine

/-! ### The block's side of a turn -/

/-- The block after the one edge that a host drives with the cycle c, for a `Running` block and `rst` = 0. -/
def State.driven (s : State) (c : HostCycle) : State := (s.expecting c []).afterEdge c

theorem ScriptState.driveEdge_running {ss : ScriptState} {c : HostCycle} (hs : ss.block.phase = .running)
    (hrst : c.rst = false) (k : State → ScriptState) : ss.driveEdge c k = .next (k (ss.block.driven c)) := by
  have hstep : step { ss.block with host := [.edge c] } = .next (ss.block.driven c) :=
    (RunningEdge.expecting hs hrst []).step_eq_afterEdge
  rw [ScriptState.driveEdge, hstep]

/-- t is the `Running` block s after edges that accepted these operands and delivered these results, with no reset. -/
structure State.Beats (s t : State) (operands : List (Elem × Elem)) (received : List Elem) : Prop where
  phase : t.phase = .running
  inv : s.Inv → t.Inv
  accepted : t.accepted = s.accepted ++ operands
  delivered : t.delivered = s.delivered ++ received

theorem State.Beats.refl {s : State} (hs : s.phase = .running) : s.Beats s [] [] :=
  ⟨hs, id, (List.append_nil _).symm, (List.append_nil _).symm⟩

theorem State.Beats.trans {s t u : State} {operands operands' : List (Elem × Elem)} {received received' : List Elem}
    (h : s.Beats t operands received) (h' : t.Beats u operands' received') :
    s.Beats u (operands ++ operands') (received ++ received') where
  phase := h'.phase
  inv := h'.inv ∘ h.inv
  accepted := by rw [h'.accepted, h.accepted, List.append_assoc]
  delivered := by rw [h'.delivered, h.delivered, List.append_assoc]

theorem State.driven_beats {s : State} {c : HostCycle} (hs : s.phase = .running) (hrst : c.rst = false) :
    s.Beats (s.driven c) (if c.reqValid && s.canAccept c then [(c.reqA, c.reqB)] else [])
      (if s.delivers c then (s.q.map (·.r)).take 1 else []) where
  phase := hs
  inv h := State.afterEdge_inv (s := s.expecting c []) hs hrst h
  accepted := rfl
  delivered := rfl

theorem State.driven_quiet_beats {s : State} (hs : s.phase = .running) : s.Beats (s.driven quietCycle) [] [] := by
  have beats := State.driven_beats (c := quietCycle) hs rfl
  rw [State.delivers_of_not_taken rfl] at beats
  exact beats

theorem State.driven_gfmul_beats {s : State} (hs : s.phase = .running) (v w : Elem) :
    s.Beats (s.driven (gfmulCycle v w)) (if s.canAccept (gfmulCycle v w) then [(v, w)] else []) [] := by
  have beats := State.driven_beats (c := gfmulCycle v w) hs rfl
  rw [State.delivers_of_not_taken rfl] at beats
  exact beats

theorem State.driven_recv_beats {s : State} (hs : s.phase = .running) :
    s.Beats (s.driven recvCycle) [] (if headReady s.q then [headResult 0#128 s.q] else []) := by
  have beats := State.driven_beats (c := recvCycle) hs rfl
  have takes : s.delivers recvCycle = headReady s.q := Bool.and_true _
  rw [takes] at beats
  cases hready : headReady s.q with
  | false =>
    rw [hready] at beats
    exact beats
  | true =>
    rw [hready] at beats
    rw [singleton_headResult_of_headReady hready]
    exact beats

/-! ### One turn at a `gfmul` and at a `recv` line -/

section
variable {s : State} {env : Names} {rest : List Line}

/-- A turn at a `gfmul` line: the line is done just when the block can accept. -/
theorem scriptStep_gfmul (hs : s.phase = .running) {a b : Operand} {v w : Elem} (ha : a.value env = some v)
    (hb : b.value env = some w) (i : Nat) :
    scriptStep ⟨.gfmul a b :: rest, i, env, s⟩ = .next
      ⟨if s.canAccept (gfmulCycle v w) then rest else .gfmul a b :: rest, i, env, s.driven (gfmulCycle v w)⟩ := by
  simp only [scriptStep, ha, hb]
  rw [ScriptState.driveEdge_running (by exact hs) rfl, (State.driven_gfmul_beats hs v w).accepted]
  cases s.canAccept (gfmulCycle v w) <;> simp

/-- A turn at a `recv` line: the line is done, and its name bound to the head's result, just when the head is ready. -/
theorem scriptStep_recv (hs : s.phase = .running) (n : String) (i : Nat) :
    scriptStep ⟨.recv n :: rest, i, env, s⟩ = .next
      (if headReady s.q then ⟨rest, i, (n, headResult 0#128 s.q) :: env, s.driven recvCycle⟩
        else ⟨.recv n :: rest, i, env, s.driven recvCycle⟩) := by
  simp only [scriptStep]
  rw [ScriptState.driveEdge_running (by exact hs) rfl, (State.driven_recv_beats hs).delivered]
  cases headReady s.q <;> simp

end

/-- Settles O49: the turn at each line, and the beats of its edge. -/
theorem scriptLinesTakeTheirBeats : Obligations.ScriptLinesTakeTheirBeats := by
  refine ⟨?gfmul, ?recv⟩
  case gfmul =>
    rintro ⟨_, i, env, s⟩ a b rest v w rfl ha hb hs
    refine ⟨_, scriptStep_gfmul hs ha hb i, rfl, ?_⟩
    have beats := (State.driven_gfmul_beats hs v w).accepted
    cases hcan : s.canAccept (gfmulCycle v w) with
    | true =>
      rw [hcan] at beats
      exact ⟨rfl, beats⟩
    | false =>
      rw [hcan] at beats
      exact ⟨rfl, beats.trans (List.append_nil _)⟩
  case recv =>
    rintro ⟨_, i, env, s⟩ n rest rfl hs
    refine ⟨_, scriptStep_recv hs n i, ?_⟩
    have beats := (State.driven_recv_beats hs).delivered
    cases hready : headReady s.q with
    | true =>
      obtain ⟨x, xs, hq, hx⟩ := headReady_eq_true_iff.mp hready
      rw [hready, hq, headResult_cons_of_ready hx] at beats
      rw [hq, headResult_cons_of_ready hx]
      exact .inl ⟨x, xs, rfl, hx, rfl, rfl, beats⟩
    | false =>
      rw [hready] at beats
      exact .inr ⟨rfl, rfl, rfl, beats.trans (List.append_nil _)⟩

/-! ### The script's side of a turn -/

/-- The request words of these operands, in order (30_encoding.md R61). -/
def requestWords (operands : List (Elem × Elem)) : List (BitVec 256) := operands.map fun ab => reqOfPorts ab.1 ab.2

/-- From the script `lines`, with the names env bound, `lines'` are left, with env' bound: the lines between sent these
operands and took these results. -/
structure LinesDone (env : Names) (lines : List Line) (env' : Names) (lines' : List Line)
    (operands : List (Elem × Elem)) (received : List Elem) : Prop where
  noReset : (∀ l ∈ lines, l ≠ .reset) → ∀ l ∈ lines', l ≠ .reset
  gfmuls : gfmulLines lines = operands.length + gfmulLines lines'
  recvs : recvLines lines = received.length + recvLines lines'
  encoding : ∀ later, scriptEncoding env (received ++ later) lines =
    (scriptEncoding env' later lines').map (requestWords operands ++ ·)

namespace LinesDone

variable {env env' env'' : Names} {lines lines' lines'' rest : List Line}

theorem of_no_beat (left : lines' <:+ lines) (gfmuls : gfmulLines lines = gfmulLines lines')
    (recvs : recvLines lines = recvLines lines')
    (encoding : ∀ later, scriptEncoding env later lines = scriptEncoding env' later lines') :
    LinesDone env lines env' lines' [] [] where
  noReset h l hl := h l (left.subset hl)
  gfmuls := gfmuls.trans (Nat.zero_add _).symm
  recvs := recvs.trans (Nat.zero_add _).symm
  encoding later := (encoding later).trans Option.map_id'.symm

theorem refl (env : Names) (lines : List Line) : LinesDone env lines env lines [] [] :=
  of_no_beat List.suffix_rfl rfl rfl fun _ => rfl

theorem trans {operands operands' : List (Elem × Elem)} {received received' : List Elem}
    (h : LinesDone env lines env' lines' operands received) (h' : LinesDone env' lines' env'' lines'' operands' received') :
    LinesDone env lines env'' lines'' (operands ++ operands') (received ++ received') where
  noReset := h'.noReset ∘ h.noReset
  gfmuls := by rw [h.gfmuls, h'.gfmuls, List.length_append, Nat.add_assoc]
  recvs := by rw [h.recvs, h'.recvs, List.length_append, Nat.add_assoc]
  encoding later := by
    rw [List.append_assoc, h.encoding, h'.encoding, Option.map_map]
    simp only [requestWords, List.map_append, List.append_assoc, Function.comp_def]

theorem gfmul {a b : Operand} {v w : Elem} (ha : a.value env = some v) (hb : b.value env = some w) :
    LinesDone env (.gfmul a b :: rest) env rest [(v, w)] [] where
  noReset h l hl := h l (List.mem_cons_of_mem _ hl)
  gfmuls := Nat.add_comm _ _
  recvs := (Nat.zero_add _).symm
  encoding later := by
    rw [List.nil_append, scriptEncoding, ha, hb]
    cases scriptEncoding env later rest <;> rfl

theorem recv (n : String) (r : Elem) : LinesDone env (.recv n :: rest) ((n, r) :: env) rest [] [r] where
  noReset h l hl := h l (List.mem_cons_of_mem _ hl)
  gfmuls := (Nat.zero_add _).symm
  recvs := Nat.add_comm _ _
  encoding _ := Option.map_id'.symm

theorem host {e : HostExpr} {v : Elem} (he : e.value env = some v) (n : String) :
    LinesDone env (.host n e :: rest) ((n, v) :: env) rest [] [] :=
  of_no_beat (List.suffix_cons _ _) rfl rfl fun _ => by rw [scriptEncoding, he]

theorem idle (k : Nat) : LinesDone env (.idle k :: rest) env rest [] [] :=
  of_no_beat (List.suffix_cons _ _) rfl rfl fun _ => by rw [scriptEncoding]

theorem comment (text : String) : LinesDone env (.comment text :: rest) env rest [] [] :=
  of_no_beat (List.suffix_cons _ _) rfl rfl fun _ => by rw [scriptEncoding]

end LinesDone

/-! ### One turn, and a run of turns -/

/-- The block and the script go on together: what the block accepts and delivers is what the lines done send and take. -/
def ScriptState.Advances (ss t : ScriptState) (operands : List (Elem × Elem)) (received : List Elem) : Prop :=
  ss.block.Beats t.block operands received ∧ LinesDone ss.env ss.lines t.env t.lines operands received

theorem scriptStep_advances {ss t : ScriptState} (hs : ss.block.phase = .running) (hreset : ∀ l ∈ ss.lines, l ≠ .reset)
    (hstep : scriptStep ss = .next t) : ∃ operands received, ss.Advances t operands received := by
  obtain ⟨lines, i, env, s⟩ := ss
  have stay := State.Beats.refl (s := s) hs
  cases lines with
  | nil => cases hstep
  | cons line rest =>
    cases line with
    | reset => exact absurd rfl (hreset _ List.mem_cons_self)
    | comment text =>
      cases hstep
      exact ⟨[], [], stay, .comment text⟩
    | host n e =>
      simp only [scriptStep] at hstep
      split at hstep
      next v he =>
        cases hstep
        exact ⟨[], [], stay, .host he n⟩
      next => cases hstep
    | idle k =>
      simp only [scriptStep] at hstep
      split at hstep
      next =>
        rw [ScriptState.driveEdge_running (by exact hs) rfl] at hstep
        cases hstep
        exact ⟨[], [], State.driven_quiet_beats hs, .refl _ _⟩
      next =>
        cases hstep
        exact ⟨[], [], stay, .idle k⟩
    | gfmul a b =>
      cases ha : a.value env with
      | none =>
        simp only [scriptStep, ha] at hstep
        cases hstep
      | some v =>
        cases hb : b.value env with
        | none =>
          simp only [scriptStep, ha, hb] at hstep
          cases hstep
        | some w =>
          cases (scriptStep_gfmul hs ha hb i).symm.trans hstep
          have beats := State.driven_gfmul_beats hs v w
          cases hcan : s.canAccept (gfmulCycle v w) with
          | true => exact ⟨[(v, w)], [], by rwa [hcan] at beats, .gfmul ha hb⟩
          | false => exact ⟨[], [], by rwa [hcan] at beats, .refl _ _⟩
    | recv n =>
      cases (scriptStep_recv hs n i).symm.trans hstep
      have beats := State.driven_recv_beats hs
      cases hready : headReady s.q with
      | true => exact ⟨[], [headResult 0#128 s.q], by rwa [hready] at beats, .recv n _⟩
      | false => exact ⟨[], [], by rwa [hready] at beats, .refl _ _⟩

theorem scriptRun_succ_next {m : Nat} {ss t : ScriptState} (h : scriptRun (m + 1) ss = .next t) :
    ∃ u, scriptStep ss = .next u ∧ scriptRun m u = .next t := by
  rw [scriptRun] at h
  split at h
  next u hu => exact ⟨u, hu, h⟩
  all_goals cases h

theorem scriptRun_advances {m : Nat} {ss t : ScriptState} (hs : ss.block.phase = .running)
    (hreset : ∀ l ∈ ss.lines, l ≠ .reset) (hrun : scriptRun m ss = .next t) :
    ∃ operands received, ss.Advances t operands received := by
  induction m generalizing ss with
  | zero =>
    cases hrun
    exact ⟨[], [], .refl hs, .refl _ _⟩
  | succ m ih =>
    obtain ⟨u, hstep, hrun'⟩ := scriptRun_succ_next hrun
    obtain ⟨operands, received, beats, done⟩ := scriptStep_advances hs hreset hstep
    obtain ⟨operands', received', beats', done'⟩ := ih beats.phase (done.noReset hreset) hrun'
    exact ⟨_, _, beats.trans beats', done.trans done'⟩

theorem ScriptState.lines_of_isEnded {t : ScriptState} (h : t.isEnded = true) : t.lines = [] := List.isEmpty_iff.mp h

/-- Settles O51: every line done, so the words of the operands accepted are the whole encoding. -/
theorem scriptAcceptsItsEncoding : Obligations.ScriptAcceptsItsEncoding := by
  intro m ss t hs hreset hrun hended
  obtain ⟨operands, received, beats, done⟩ := scriptRun_advances hs hreset hrun
  have encoding := done.encoding []
  rw [List.append_nil, ScriptState.lines_of_isEnded hended] at encoding
  refine ⟨operands, received, beats.accepted, beats.delivered, encoding.trans ?_⟩
  rw [scriptEncoding, Option.map_some, List.append_nil, requestWords]

/-- Settles O50: as many results as operations have had their beats, so the invariant leaves none in flight. -/
theorem endedScriptHasDrained : Obligations.EndedScriptHasDrained := by
  intro m ss t hinv hs hacc hdel hreset hsame hrun hended
  obtain ⟨operands, received, beats, done⟩ := scriptRun_advances hs hreset hrun
  have gfmuls := done.gfmuls
  have recvs := done.recvs
  rw [ScriptState.lines_of_isEnded hended] at gfmuls recvs
  have accepted : t.block.accepted.length = gfmulLines ss.lines := by
    rw [beats.accepted, hacc, gfmuls]
    rfl
  have delivered : t.block.delivered.length = recvLines ss.lines := by
    rw [beats.delivered, hdel, recvs]
    rfl
  refine ⟨(drainedWhenCountsAgree t.block (beats.inv hinv) beats.phase).mpr ?_, beats.phase, accepted⟩
  rw [accepted, delivered, hsame]

end Sys2Proof.Machine
end

section
/-! Names of a script (30_encoding.md section 4; log 12): a well-formed script finds its names, turn after turn. -/

namespace Sys2Proof.Machine

/-! ### A bound name has a value -/

/-- The names bound in env. -/
def Names.bound (env : Names) : List String := env.map (·.1)

theorem Operand.value_of_wf {env : Names} {o : Operand} (h : o.wf env.bound = true) : ∃ v, o.value env = some v := by
  cases o with
  | lit v => exact ⟨v, rfl⟩
  | name n =>
    obtain ⟨p, inEnv, hp⟩ := List.mem_map.mp (List.contains_iff_mem.mp h)
    have found : (env.find? fun p => p.1 == n).isSome = true :=
      List.find?_isSome.mpr ⟨p, inEnv, beq_iff_eq.mpr hp⟩
    obtain ⟨p', hp'⟩ := Option.isSome_iff_exists.mp found
    exact ⟨p'.2, by rw [Operand.value, hp', Option.map_some]⟩

theorem HostBit.value_of_wf {env : Names} {x : HostBit} (h : x.wf env.bound = true) : ∃ b, x.value env = some b := by
  induction x with
  | const b => exact ⟨b, rfl⟩
  | bit o i =>
    obtain ⟨v, hv⟩ := Operand.value_of_wf h
    exact ⟨v.getLsbD i, by rw [HostBit.value, hv, Option.map_some]⟩
  | xor x y ihx ihy =>
    obtain ⟨hx, hy⟩ := Bool.and_eq_true_iff.mp h
    obtain ⟨v, hv⟩ := ihx hx
    obtain ⟨w, hw⟩ := ihy hy
    exact ⟨v ^^ w, by rw [HostBit.value, hv, hw]⟩
  | and x y ihx ihy =>
    obtain ⟨hx, hy⟩ := Bool.and_eq_true_iff.mp h
    obtain ⟨v, hv⟩ := ihx hx
    obtain ⟨w, hw⟩ := ihy hy
    exact ⟨v && w, by rw [HostBit.value, hv, hw]⟩

theorem HostBit.values_of_wf {env : Names} {bs : List HostBit} (h : bs.all (HostBit.wf env.bound) = true) :
    ∃ vs, HostBit.values env bs = some vs := by
  induction bs with
  | nil => exact ⟨[], rfl⟩
  | cons b rest ih =>
    obtain ⟨hb, hrest⟩ := Bool.and_eq_true_iff.mp h
    obtain ⟨v, hv⟩ := HostBit.value_of_wf hb
    obtain ⟨vs, hvs⟩ := ih hrest
    exact ⟨v :: vs, by rw [HostBit.values, hv, hvs]⟩

theorem HostExpr.value_of_wf {env : Names} {e : HostExpr} (h : e.wf env.bound = true) : ∃ v, e.value env = some v := by
  induction e with
  | operand o => exact Operand.value_of_wf h
  | xor x y ihx ihy =>
    obtain ⟨hx, hy⟩ := Bool.and_eq_true_iff.mp h
    obtain ⟨v, hv⟩ := ihx hx
    obtain ⟨w, hw⟩ := ihy hy
    exact ⟨v ^^^ w, by rw [HostExpr.value, hv, hw]⟩
  | bits bs =>
    obtain ⟨vs, hvs⟩ := HostBit.values_of_wf h
    exact ⟨_, by rw [HostExpr.value, hvs, Option.map_some]⟩

/-! ### Turns -/

/-- The lines left use only names that are bound then. -/
def ScriptState.namesBound (ss : ScriptState) : Prop := wfScript ss.env.bound ss.lines = true

/-- The turn does not stop for want of a name, and if it goes on, the lines left use only names that are bound then. -/
def ScriptOutcome.findsNames : ScriptOutcome → Prop
  | .next t => t.namesBound
  | .ended => True
  | .unboundName => False
  | .fault _ => True
  | .refused _ => True

theorem ScriptState.driveEdge_findsNames {ss : ScriptState} (c : HostCycle) {k : State → ScriptState}
    (h : ∀ s, (k s).namesBound) : (ss.driveEdge c k).findsNames := by
  rw [ScriptState.driveEdge]
  split
  next s _ => exact h s
  next => trivial
  next => trivial

theorem scriptStep_findsNames {ss : ScriptState} (h : ss.namesBound) : (scriptStep ss).findsNames := by
  obtain ⟨lines, i, env, s⟩ := ss
  cases lines with
  | nil => trivial
  | cons line rest =>
    cases line with
    | comment text => exact h
    | reset => exact ScriptState.driveEdge_findsNames resetCycle fun _ => h
    | idle k =>
      simp only [scriptStep]
      split
      · exact ScriptState.driveEdge_findsNames quietCycle fun _ => h
      · exact h
    | host n e =>
      obtain ⟨he, hrest⟩ := Bool.and_eq_true_iff.mp h
      obtain ⟨v, hv⟩ := HostExpr.value_of_wf he
      simp only [scriptStep, hv]
      exact hrest
    | gfmul a b =>
      obtain ⟨hoperands, hrest⟩ := Bool.and_eq_true_iff.mp h
      obtain ⟨ha, hb⟩ := Bool.and_eq_true_iff.mp hoperands
      obtain ⟨v, hv⟩ := Operand.value_of_wf ha
      obtain ⟨w, hw⟩ := Operand.value_of_wf hb
      simp only [scriptStep, hv, hw]
      refine ScriptState.driveEdge_findsNames _ fun u => ?_
      split
      · exact hrest
      · exact h
    | recv n =>
      refine ScriptState.driveEdge_findsNames recvCycle fun u => ?_
      split
      · exact h
      · exact h

theorem scriptRun_findsNames (m : Nat) {ss : ScriptState} (h : ss.namesBound) : (scriptRun m ss).findsNames := by
  induction m generalizing ss with
  | zero => exact h
  | succ m ih =>
    have turn := scriptStep_findsNames h
    rw [scriptRun]
    cases hstep : scriptStep ss with
    | next t =>
      rw [hstep] at turn
      exact ih turn
    | ended => trivial
    | unboundName =>
      rw [hstep] at turn
      exact turn
    | fault f => trivial
    | refused r => trivial

/-- Settles O53: every turn finds its names and leaves lines that will find theirs. -/
theorem wellFormedScriptFindsItsNames : Obligations.WellFormedScriptFindsItsNames := by
  refine ⟨fun m ss h hrun => ?_, fun m ss t h hrun => ?_⟩
  · have finds := scriptRun_findsNames m (ss := ss) h
    rwa [hrun] at finds
  · have finds := scriptRun_findsNames m (ss := ss) h
    rwa [hrun] at finds

end Sys2Proof.Machine
end

section
/-! A host computation for every function (30_encoding.md section 4; log 12): each bit of the result is a Boolean function of
the bits of the operands, built by one case distinction for each of these bits. -/

namespace Sys2Proof.Machine

/-! ### Case distinctions -/

/-- The bit x if c is 1, else y. -/
def HostBit.ite (c x y : HostBit) : HostBit := .xor y (.and c (.xor x y))

theorem HostBit.value_ite {env : Names} {c x y : HostBit} {b v w : Bool} (hc : c.value env = some b)
    (hx : x.value env = some v) (hy : y.value env = some w) : (HostBit.ite c x y).value env = some (if b then v else w) := by
  simp only [HostBit.ite, HostBit.value, hc, hx, hy]
  cases b <;> cases v <;> cases w <;> rfl

theorem HostBit.wf_ite {bound : List String} {c x y : HostBit} (hc : c.wf bound = true) (hx : x.wf bound = true)
    (hy : y.wf bound = true) : (HostBit.ite c x y).wf bound = true := by
  simp only [HostBit.ite, HostBit.wf, hc, hx, hy, Bool.and_self]

/-- The bits p with the bits i < k replaced by those of v. -/
def withLowBits (v : Elem) (k : Nat) (p : Nat → Bool) (i : Nat) : Bool := if i < k then v.getLsbD i else p i

theorem withLowBits_succ (v : Elem) (k : Nat) (p : Nat → Bool) :
    withLowBits v k (Function.update p k (v.getLsbD k)) = withLowBits v (k + 1) p := by
  funext i
  rw [withLowBits, withLowBits]
  rcases Nat.lt_trichotomy i k with below | rfl | above
  · rw [if_pos below, if_pos (Nat.lt_succ_of_lt below)]
  · rw [if_neg (Nat.lt_irrefl i), if_pos (Nat.lt_succ_self i), Function.update_self]
  · rw [if_neg (Nat.lt_asymm above), if_neg (by omega), Function.update_of_ne (Nat.ne_of_gt above)]

theorem ofBits_withLowBits (v : Elem) (p : Nat → Bool) : ofBits 128 (withLowBits v 128 p) = v := by
  apply BitVec.eq_of_getLsbD_eq
  intro i hi
  rw [getLsbD_ofBits, withLowBits, if_pos hi, decide_eq_true hi, Bool.true_and]

/-- A function g of an element, by case distinctions on the bits i < k of the operand o; the bits above them are p. -/
def HostBit.onBits (o : Operand) (g : Elem → HostBit) : Nat → (Nat → Bool) → HostBit
  | 0, p => g (ofBits 128 p)
  | k + 1, p =>
    .ite (.bit o k) (HostBit.onBits o g k (Function.update p k true)) (HostBit.onBits o g k (Function.update p k false))

section
variable {env : Names} {bound : List String} {o : Operand} {g : Elem → HostBit}

theorem HostBit.value_onBits {v : Elem} (ho : o.value env = some v) {f : Elem → Bool}
    (hg : ∀ x, (g x).value env = some (f x)) (k : Nat) (p : Nat → Bool) :
    (HostBit.onBits o g k p).value env = some (f (ofBits 128 (withLowBits v k p))) := by
  induction k generalizing p with
  | zero => exact hg _
  | succ k ih =>
    have bit : (HostBit.bit o k).value env = some (v.getLsbD k) := by rw [HostBit.value, ho, Option.map_some]
    rw [HostBit.onBits, HostBit.value_ite bit (ih _) (ih _), ← withLowBits_succ]
    cases v.getLsbD k <;> rfl

theorem HostBit.wf_onBits (ho : o.wf bound = true) (hg : ∀ x, (g x).wf bound = true) (k : Nat) (p : Nat → Bool) :
    (HostBit.onBits o g k p).wf bound = true := by
  induction k generalizing p with
  | zero => exact hg _
  | succ k ih => exact HostBit.wf_ite ho (ih _) (ih _)

end

/-! ### Functions of the names -/

/-- A Boolean function f of the values of these names. -/
def HostBit.ofNames : List String → (List Elem → Bool) → HostBit
  | [], f => .const (f [])
  | n :: ns, f => .onBits (.name n) (fun v => HostBit.ofNames ns fun vs => f (v :: vs)) 128 fun _ => false

theorem HostBit.value_ofNames {env : Names} {names : List String} {values : List Elem}
    (h : names.map (fun n => (Operand.name n).value env) = values.map some) (f : List Elem → Bool) :
    (HostBit.ofNames names f).value env = some (f values) := by
  induction names generalizing values f with
  | nil =>
    obtain rfl : values = [] := List.map_eq_nil_iff.mp h.symm
    rfl
  | cons n ns ih =>
    cases values with
    | nil => cases h
    | cons v vs =>
      obtain ⟨hn, hns⟩ := List.cons.inj h
      rw [HostBit.ofNames, HostBit.value_onBits hn fun x => ih hns fun vs => f (x :: vs), ofBits_withLowBits]

theorem HostBit.wf_ofNames {bound names : List String} (h : ∀ n ∈ names, bound.contains n = true)
    (f : List Elem → Bool) : (HostBit.ofNames names f).wf bound = true := by
  induction names generalizing f with
  | nil => rfl
  | cons n ns ih =>
    have inRest (m : String) (hm : m ∈ ns) : bound.contains m = true := h m (List.mem_cons_of_mem _ hm)
    exact HostBit.wf_onBits (o := .name n) (h n List.mem_cons_self) (fun _ => ih inRest _) 128 _

theorem HostBit.values_map {α : Type} {env : Names} {F : α → HostBit} {G : α → Bool}
    (h : ∀ i, (F i).value env = some (G i)) (l : List α) : HostBit.values env (l.map F) = some (l.map G) := by
  induction l with
  | nil => rfl
  | cons i rest ih => rw [List.map_cons, HostBit.values, h i, ih, List.map_cons]

theorem HostExpr.value_ofFn {env : Names} {F : Nat → HostBit} {v : Elem}
    (h : ∀ i, (F i).value env = some (v.getLsbD i)) : (HostExpr.ofFn F).value env = some v := by
  rw [HostExpr.ofFn, HostExpr.value, HostBit.values_map h, Option.map_some, Option.some.injEq]
  apply BitVec.eq_of_getLsbD_eq
  intro i hi
  rw [getLsbD_ofBits, decide_eq_true hi, Bool.true_and, List.getElem?_map, List.getElem?_range hi, Option.map_some,
    Option.getD_some]

theorem HostExpr.wf_ofFn {bound : List String} {F : Nat → HostBit} (h : ∀ i, (F i).wf bound = true) :
    (HostExpr.ofFn F).wf bound = true := by
  rw [HostExpr.ofFn, HostExpr.wf, List.all_map, List.all_eq_true]
  exact fun i _ => h i

/-- Settles O52: bit i of the result, for each i, as a Boolean function of the values of the names. -/
theorem hostComputesAnyFunction : Obligations.HostComputesAnyFunction := by
  intro names f
  refine ⟨.ofFn fun i => .ofNames names fun vs => (f vs).getLsbD i, HostExpr.wf_ofFn fun i => ?_, fun env values h => ?_⟩
  · exact HostBit.wf_ofNames (fun n hn => List.contains_iff_mem.mpr hn) _
  · exact HostExpr.value_ofFn fun i => HostBit.value_ofNames h fun vs => (f vs).getLsbD i

end Sys2Proof.Machine
end
